-- ==== Sys2Proof/Word.lean ====
section
/-! DEFINITION. The words of the bus: a data byte, a 16-bit address (00_scope.md R5), and the one transaction format
the host issues (30_encoding.md R90, 00_scope.md R9). -/

namespace Sys2Proof

/-- The 8-bit data of every access (R5, R76). -/
abbrev Byte := BitVec 8

/-- The 16-bit raw address of every access (R5, R73). -/
abbrev Addr := BitVec 16

/-- One transaction as the host issues it (R9, R90): `RD a` or `WR a, d`.
A read carries no data byte of the host's: its D is the byte the block returns. -/
inductive Transaction where
  | read (a : Addr)
  | write (a : Addr) (d : Byte)
  deriving DecidableEq, Repr

end Sys2Proof
end

