-- ==== Sys2Proof/Config.lean ====
section
/-! DEFINITION. The fixed parameters of 00_scope.md R5, the two mode inputs of the decode (30_encoding.md R92), and the
choices the model makes where the spec leaves a construction parameter open (notes/assumptions 1, 2, 3). -/

namespace Sys2Proof

/-- Which cartridge variant is present: `kind(cart)` (R2, R92). -/
inductive CartKind where
  | none
  | mbc1
  deriving DecidableEq, Repr

/-- The two values besides the decode word that select the operation (R92): `B` and `K`. -/
structure Mode where
  biosEnabled : Bool
  cart : CartKind
  deriving DecidableEq, Repr

/-- The bios store holds exactly 256 bytes (R5, R23). -/
def Config.biosSize : Nat := 0x100
/-- A ROM bank is 16 KiB (R5, R25). -/
def Config.romBankSize : Nat := 0x4000
/-- A RAM bank is 8 KiB (R5, R26). -/
def Config.ramBankSize : Nat := 0x2000
/-- Video RAM is 8 KiB (R5, R33). -/
def Config.vramSize : Nat := 0x2000
/-- Working RAM is 8 KiB (R5, R34). -/
def Config.wramSize : Nat := 0x2000
/-- The sprite table is 160 bytes (R5, R35). -/
def Config.oamSize : Nat := 0xA0
/-- High RAM is 127 bytes (R5, R36). -/
def Config.hramSize : Nat := 0x7F
/-- The I/O window is 0x80 bytes (R5, R190). -/
def Config.ioSize : Nat := 0x80
/-- The MBC1 accepts cartridge-relative addresses 0x0000 to 0x9FFF (R5, R153). -/
def Config.mbc1WindowSize : Nat := 0xA000
/-- The no-cartridge null device is 0x10000 bytes (R5, R150; 90_conflicts.md C5). -/
def Config.nullCartSize : Nat := 0x10000
/-- The bios latch's offset in the I/O window (R5, R190). -/
def Config.bootOffset : Addr := 0x50
/-- The bios latch's system address (R193, R194). -/
def Config.bootAddr : Addr := 0xFF50

/-- DESIGN CHOICE (notes/assumptions 1), unsafe: the byte a store reads as at an offset that lists none.
The spec leaves the initial RAM open (92_eei_decisions.md D3, D4); `construct` takes it as an argument. -/
def Config.unlistedByte : Byte := 0x00

/-- DESIGN CHOICE (notes/assumptions 2), unsafe: `State.reset` is built with a RAM-capable MBC1 cartridge.
`has_ram` comes from the loader (R46). -/
def Config.resetHasRam : Bool := true

/-- The mode inputs of `State.reset`: the bios is mapped (R46) and, by notes/assumptions 2, an MBC1 is present. -/
def Config.resetMode : Mode := ⟨true, .mbc1⟩

end Sys2Proof
end

