-- ==== Sys2Proof/Syntax.lean ====
section
/-! DEFINITION. The 28 operations of 30_encoding.md R100, one constructor for each mnemonic of spec/opcode_table.json.
`a` is the system address A of the transaction and `d` a write's data byte D (R90, R101, R102).
RD_IO_BOOT and WR_IO_BOOT have one address only, 0xFF50, so they carry none. -/

namespace Sys2Proof

inductive Instr where
  /-- RD_BIOS (R124) -/
  | rdBios (a : Addr)
  /-- WR_BIOS (R125) -/
  | wrBios (a : Addr) (d : Byte)
  /-- RD_VRAM (R126) -/
  | rdVram (a : Addr)
  /-- WR_VRAM (R127) -/
  | wrVram (a : Addr) (d : Byte)
  /-- RD_WRAM (R128) -/
  | rdWram (a : Addr)
  /-- WR_WRAM (R129) -/
  | wrWram (a : Addr) (d : Byte)
  /-- RD_ECHO (R130) -/
  | rdEcho (a : Addr)
  /-- WR_ECHO (R131) -/
  | wrEcho (a : Addr) (d : Byte)
  /-- RD_OAM (R132) -/
  | rdOam (a : Addr)
  /-- WR_OAM (R133) -/
  | wrOam (a : Addr) (d : Byte)
  /-- RD_UNMAPPED (R134) -/
  | rdUnmapped (a : Addr)
  /-- WR_UNMAPPED (R135) -/
  | wrUnmapped (a : Addr) (d : Byte)
  /-- RD_HRAM (R136) -/
  | rdHram (a : Addr)
  /-- WR_HRAM (R137) -/
  | wrHram (a : Addr) (d : Byte)
  /-- RD_NOCART (R151) -/
  | rdNocart (a : Addr)
  /-- WR_NOCART (R152) -/
  | wrNocart (a : Addr) (d : Byte)
  /-- RD_ROM0 (R158) -/
  | rdRom0 (a : Addr)
  /-- RD_ROMX (R159) -/
  | rdRomx (a : Addr)
  /-- RD_XRAM (R160) -/
  | rdXram (a : Addr)
  /-- WR_RAMEN (R161) -/
  | wrRamen (a : Addr) (d : Byte)
  /-- WR_ROMB (R162) -/
  | wrRomb (a : Addr) (d : Byte)
  /-- WR_BANKSET (R163) -/
  | wrBankset (a : Addr) (d : Byte)
  /-- WR_MODE (R164) -/
  | wrMode (a : Addr) (d : Byte)
  /-- WR_XRAM (R165) -/
  | wrXram (a : Addr) (d : Byte)
  /-- RD_IO_STUB (R191) -/
  | rdIoStub (a : Addr)
  /-- WR_IO_STUB (R192) -/
  | wrIoStub (a : Addr) (d : Byte)
  /-- RD_IO_BOOT (R193) -/
  | rdIoBoot
  /-- WR_IO_BOOT (R194) -/
  | wrIoBoot (d : Byte)
  deriving DecidableEq, Repr

end Sys2Proof
end

