-- ==== Sys2Proof/WellFormed.lean ====
section
/-! DEFINITION. When an operation is one the decoder can give: the operation map of 30_encoding.md R100, its columns
"system A range(s)", B and K, row by row. -/

namespace Sys2Proof

/-- `lo ≤ a ≤ hi`: the spec's ranges include both ends (R10). -/
def Addr.within (a lo hi : Addr) : Bool := decide (lo ≤ a) && decide (a ≤ hi)

/-- A range of R100 that loses its bytes 0x0000 to 0x00FF while the bios is mapped (R94):
"0x0100–hi if B=1; 0x0000–hi if B=0". -/
def Mode.underBios (m : Mode) (a hi : Addr) : Bool :=
  Addr.within a (if m.biosEnabled then 0x0100 else 0x0000) hi

/-- The ranges of RD_NOCART and WR_NOCART (R100). -/
def Mode.cartWindow (m : Mode) (a : Addr) : Bool :=
  m.underBios a 0x7FFF || Addr.within a 0xA000 0xBFFF

/-- The two unmapped holes (R100, R134). -/
def Addr.unmapped (a : Addr) : Bool := Addr.within a 0xFEA0 0xFEFF || a == 0xFFFF

/-- The stub offsets of the I/O window (R100, R191). -/
def Addr.ioStub (a : Addr) : Bool := Addr.within a 0xFF00 0xFF4F || Addr.within a 0xFF51 0xFF7F

/-- The operation map of R100: in mode `m`, operation `i` at this address is a transaction of that name. -/
def Instr.wellFormed (m : Mode) : Instr → Bool
  | .rdBios a => m.biosEnabled && Addr.within a 0x0000 0x00FF
  | .wrBios a _ => m.biosEnabled && Addr.within a 0x0000 0x00FF
  | .rdVram a => Addr.within a 0x8000 0x9FFF
  | .wrVram a _ => Addr.within a 0x8000 0x9FFF
  | .rdWram a => Addr.within a 0xC000 0xDFFF
  | .wrWram a _ => Addr.within a 0xC000 0xDFFF
  | .rdEcho a => Addr.within a 0xE000 0xFDFF
  | .wrEcho a _ => Addr.within a 0xE000 0xFDFF
  | .rdOam a => Addr.within a 0xFE00 0xFE9F
  | .wrOam a _ => Addr.within a 0xFE00 0xFE9F
  | .rdUnmapped a => Addr.unmapped a
  | .wrUnmapped a _ => Addr.unmapped a
  | .rdHram a => Addr.within a 0xFF80 0xFFFE
  | .wrHram a _ => Addr.within a 0xFF80 0xFFFE
  | .rdNocart a => m.cart == .none && m.cartWindow a
  | .wrNocart a _ => m.cart == .none && m.cartWindow a
  | .rdRom0 a => m.cart == .mbc1 && m.underBios a 0x3FFF
  | .rdRomx a => m.cart == .mbc1 && Addr.within a 0x4000 0x7FFF
  | .rdXram a => m.cart == .mbc1 && Addr.within a 0xA000 0xBFFF
  | .wrRamen a _ => m.cart == .mbc1 && m.underBios a 0x1FFF
  | .wrRomb a _ => m.cart == .mbc1 && Addr.within a 0x2000 0x3FFF
  | .wrBankset a _ => m.cart == .mbc1 && Addr.within a 0x4000 0x5FFF
  | .wrMode a _ => m.cart == .mbc1 && Addr.within a 0x6000 0x7FFF
  | .wrXram a _ => m.cart == .mbc1 && Addr.within a 0xA000 0xBFFF
  | .rdIoStub a => Addr.ioStub a
  | .wrIoStub a _ => Addr.ioStub a
  | .rdIoBoot => true
  | .wrIoBoot _ => true

end Sys2Proof
end

