-- ==== Sys2Proof/Decode.lean ====
section
/-! DEFINITION. Decode and encode: the decode word (30_encoding.md R91), the decode function of R106, the encoder of an
operation as a transaction, the serial form the host's tools use (notes/assumptions 6), and the rows of
spec/opcode_table.json (R107). -/

namespace Sys2Proof

/-- The address A of a transaction (R90). -/
def Transaction.addr : Transaction → Addr
  | .read a => a
  | .write a _ => a

/-- The direction bit W: true for a write (R90). -/
def Transaction.isWrite : Transaction → Bool
  | .read _ => false
  | .write _ _ => true

/-- The decode word `DW[16:0] = {W, A[15:0]}` (R91). -/
def Transaction.decodeWord (t : Transaction) : BitVec 17 :=
  BitVec.ofBool t.isWrite ++ t.addr

/-- R106 with W = 0: the comparisons are ordered, so each later test assumes the earlier ones failed. -/
def decodeRead (m : Mode) (a : Addr) : Instr :=
  if a ≤ 0x00FF && m.biosEnabled then .rdBios a
  else if a ≤ 0x7FFF then
    if m.cart = .none then .rdNocart a
    else if a ≤ 0x3FFF then .rdRom0 a else .rdRomx a
  else if a ≤ 0x9FFF then .rdVram a
  else if a ≤ 0xBFFF then
    if m.cart = .none then .rdNocart a else .rdXram a
  else if a ≤ 0xDFFF then .rdWram a
  else if a ≤ 0xFDFF then .rdEcho a
  else if a ≤ 0xFE9F then .rdOam a
  else if a ≤ 0xFEFF then .rdUnmapped a
  else if a ≤ 0xFF7F then
    if a = 0xFF50 then .rdIoBoot else .rdIoStub a
  else if a ≤ 0xFFFE then .rdHram a
  else .rdUnmapped a

/-- R106 with W = 1. -/
def decodeWrite (m : Mode) (a : Addr) (d : Byte) : Instr :=
  if a ≤ 0x00FF && m.biosEnabled then .wrBios a d
  else if a ≤ 0x7FFF then
    if m.cart = .none then .wrNocart a d
    else if a ≤ 0x1FFF then .wrRamen a d
    else if a ≤ 0x3FFF then .wrRomb a d
    else if a ≤ 0x5FFF then .wrBankset a d
    else .wrMode a d
  else if a ≤ 0x9FFF then .wrVram a d
  else if a ≤ 0xBFFF then
    if m.cart = .none then .wrNocart a d else .wrXram a d
  else if a ≤ 0xDFFF then .wrWram a d
  else if a ≤ 0xFDFF then .wrEcho a d
  else if a ≤ 0xFE9F then .wrOam a d
  else if a ≤ 0xFEFF then .wrUnmapped a d
  else if a ≤ 0xFF7F then
    if a = 0xFF50 then .wrIoBoot d else .wrIoStub a d
  else if a ≤ 0xFFFE then .wrHram a d
  else .wrUnmapped a d

/-- `Decode(W, A, B, K)` of R106, total: no transaction is illegal (R103). -/
def decode (m : Mode) : Transaction → Instr
  | .read a => decodeRead m a
  | .write a d => decodeWrite m a d

/-- The transaction an operation is (R100): the encoder. -/
def encode : Instr → Transaction
  | .rdBios a => .read a
  | .wrBios a d => .write a d
  | .rdVram a => .read a
  | .wrVram a d => .write a d
  | .rdWram a => .read a
  | .wrWram a d => .write a d
  | .rdEcho a => .read a
  | .wrEcho a d => .write a d
  | .rdOam a => .read a
  | .wrOam a d => .write a d
  | .rdUnmapped a => .read a
  | .wrUnmapped a d => .write a d
  | .rdHram a => .read a
  | .wrHram a d => .write a d
  | .rdNocart a => .read a
  | .wrNocart a d => .write a d
  | .rdRom0 a => .read a
  | .rdRomx a => .read a
  | .rdXram a => .read a
  | .wrRamen a d => .write a d
  | .wrRomb a d => .write a d
  | .wrBankset a d => .write a d
  | .wrMode a d => .write a d
  | .wrXram a d => .write a d
  | .rdIoStub a => .read a
  | .wrIoStub a d => .write a d
  | .rdIoBoot => .read 0xFF50
  | .wrIoBoot d => .write 0xFF50 d

/-- The operation's name in spec/opcode_table.json (R100, R107). -/
def Instr.mnemonic : Instr → String
  | .rdBios _ => "RD_BIOS"
  | .wrBios _ _ => "WR_BIOS"
  | .rdVram _ => "RD_VRAM"
  | .wrVram _ _ => "WR_VRAM"
  | .rdWram _ => "RD_WRAM"
  | .wrWram _ _ => "WR_WRAM"
  | .rdEcho _ => "RD_ECHO"
  | .wrEcho _ _ => "WR_ECHO"
  | .rdOam _ => "RD_OAM"
  | .wrOam _ _ => "WR_OAM"
  | .rdUnmapped _ => "RD_UNMAPPED"
  | .wrUnmapped _ _ => "WR_UNMAPPED"
  | .rdHram _ => "RD_HRAM"
  | .wrHram _ _ => "WR_HRAM"
  | .rdNocart _ => "RD_NOCART"
  | .wrNocart _ _ => "WR_NOCART"
  | .rdRom0 _ => "RD_ROM0"
  | .rdRomx _ => "RD_ROMX"
  | .rdXram _ => "RD_XRAM"
  | .wrRamen _ _ => "WR_RAMEN"
  | .wrRomb _ _ => "WR_ROMB"
  | .wrBankset _ _ => "WR_BANKSET"
  | .wrMode _ _ => "WR_MODE"
  | .wrXram _ _ => "WR_XRAM"
  | .rdIoStub _ => "RD_IO_STUB"
  | .wrIoStub _ _ => "WR_IO_STUB"
  | .rdIoBoot => "RD_IO_BOOT"
  | .wrIoBoot _ => "WR_IO_BOOT"

/-- A hexadecimal digit, in capitals (R105). -/
def hexDigit (n : Nat) : Char :=
  ['0', '1', '2', '3', '4', '5', '6', '7', '8', '9', 'A', 'B', 'C', 'D', 'E', 'F'].getD n '0'

/-- A byte as its two hexadecimal digits (R105). -/
def hexByte (b : Byte) : List Char := [hexDigit (b.toNat / 16), hexDigit (b.toNat % 16)]

/-- The transaction syntax of R105: `RD aaaa` or `WR aaaa, dd`. Text only: nothing decodes it. -/
def Transaction.text : Transaction → List Char
  | .read a => ['R', 'D', ' '] ++ hexByte ((a >>> 8).setWidth 8) ++ hexByte (a.setWidth 8)
  | .write a d =>
    ['W', 'R', ' '] ++ hexByte ((a >>> 8).setWidth 8) ++ hexByte (a.setWidth 8) ++ [',', ' '] ++ hexByte d

/-! The serial form of a transaction (DESIGN CHOICE, notes/assumptions 6): four bytes, the decode word in three with its
least significant byte first, then D. The spec has no byte form (R74, R90); this one exists for the opcode table's
numbering of bits and for nothing else, and the machine's own input is a list of transactions. -/

/-- Why four bytes are not a transaction. -/
inductive DecodeReject where
  /-- fewer than four bytes are left -/
  | truncated (got : Nat)
  /-- bits 23 to 17, above the decode word, are not zero -/
  | bitsAboveDecodeWord (third : Byte)
  /-- a table word longer than a transaction's 32 bits -/
  | tooLong (bits : Nat)
  deriving DecidableEq, Repr

/-- Read one transaction from a list of bytes; answer it and the bytes after it.
A read has no D of the host's, so its fourth byte is not looked at (R90). -/
def decodeSerial : List Byte → Except DecodeReject (Transaction × List Byte)
  | lo :: hi :: w :: d :: rest =>
    if w = 0 then .ok (.read (hi ++ lo), rest)
    else if w = 1 then .ok (.write (hi ++ lo) d, rest)
    else .error (.bitsAboveDecodeWord w)
  | [] => .error (.truncated 0)
  | [_] => .error (.truncated 1)
  | [_, _] => .error (.truncated 2)
  | [_, _, _] => .error (.truncated 3)

/-- The serial form of a transaction; a read's fourth byte is zero. -/
def Transaction.toSerial : Transaction → List Byte
  | .read a => [a.setWidth 8, (a >>> 8).setWidth 8, 0, 0]
  | .write a d => [a.setWidth 8, (a >>> 8).setWidth 8, 1, d]

/-- Decode from bytes, in a mode: total, rejecting by name. -/
def decodeBytes (m : Mode) (bs : List Byte) : Except DecodeReject (Instr × List Byte) :=
  match decodeSerial bs with
  | .ok (t, rest) => .ok (decode m t, rest)
  | .error r => .error r

/-- The bytes of an operation. -/
def encodeBytes (i : Instr) : List Byte := (encode i).toSerial

/-- The four bytes of a number, least significant first. -/
def serialOfNat (v : Nat) : List Byte :=
  [BitVec.ofNat 8 v, BitVec.ofNat 8 (v / 0x100), BitVec.ofNat 8 (v / 0x10000), BitVec.ofNat 8 (v / 0x1000000)]

/-- The transaction whose bits are `w`, numbered as spec/opcode_table.json numbers them (R107): A is bits 15..0, W is
bit 16; bits 23..17 are zero, D is bits 31..24, and bits from `nbits` on are zero. -/
def tableTransaction (nbits w : Nat) : Except DecodeReject Transaction :=
  let v := w % 2 ^ nbits
  if v / 2 ^ 32 = 0 then
    match decodeSerial (serialOfNat v) with
    | .ok (t, _) => .ok t
    | .error r => .error r
  else .error (.tooLong nbits)

/-- The operation the decoder reads from a table word. The table's words do not hold the mode inputs B and K (R92), so
this is the decode in the mode of `State.reset` (notes/assumptions 7). -/
def decodeTableWord (nbits w : Nat) : Option Instr :=
  match tableTransaction nbits w with
  | .ok t => some (decode Config.resetMode t)
  | .error _ => none

/-! The opcode table (R107), its 91 rows as match and mask over the decode word. -/

/-- One row: it applies when `DW & mask == match` in a mode its `cond` admits; `none` is the table's "x". -/
structure OpcodeRow where
  mnemonic : String
  bits : BitVec 17
  mask : BitVec 17
  bios : Option Bool
  cart : Option CartKind
  deriving DecidableEq, Repr

/-- The mode part of a row's condition (R107). -/
def OpcodeRow.admits (r : OpcodeRow) (m : Mode) : Bool :=
  (match r.bios with | some b => b == m.biosEnabled | none => true) &&
  (match r.cart with | some k => k == m.cart | none => true)

/-- "A row applies when `DW & mask == match`" (R107), in a mode it admits. -/
def OpcodeRow.applies (r : OpcodeRow) (m : Mode) (dw : BitVec 17) : Bool :=
  dw &&& r.mask == r.bits && r.admits m

/-- RD_BIOS, RD_NOCART -/
def opcodeRowsBiosNocartRead : List OpcodeRow :=
  [ ⟨"RD_BIOS", 0x00000, 0x1FF00, some true, none⟩
  , ⟨"RD_NOCART", 0x00100, 0x1FF00, some true, some .none⟩
  , ⟨"RD_NOCART", 0x00200, 0x1FE00, some true, some .none⟩
  , ⟨"RD_NOCART", 0x00400, 0x1FC00, some true, some .none⟩
  , ⟨"RD_NOCART", 0x00800, 0x1F800, some true, some .none⟩
  , ⟨"RD_NOCART", 0x01000, 0x1F000, some true, some .none⟩
  , ⟨"RD_NOCART", 0x02000, 0x1E000, some true, some .none⟩
  , ⟨"RD_NOCART", 0x04000, 0x1C000, some true, some .none⟩
  , ⟨"RD_NOCART", 0x00000, 0x18000, some false, some .none⟩
  , ⟨"RD_NOCART", 0x0A000, 0x1E000, none, some .none⟩ ]

/-- RD_ROM0, RD_ROMX, RD_XRAM -/
def opcodeRowsMbc1Read : List OpcodeRow :=
  [ ⟨"RD_ROM0", 0x00100, 0x1FF00, some true, some .mbc1⟩
  , ⟨"RD_ROM0", 0x00200, 0x1FE00, some true, some .mbc1⟩
  , ⟨"RD_ROM0", 0x00400, 0x1FC00, some true, some .mbc1⟩
  , ⟨"RD_ROM0", 0x00800, 0x1F800, some true, some .mbc1⟩
  , ⟨"RD_ROM0", 0x01000, 0x1F000, some true, some .mbc1⟩
  , ⟨"RD_ROM0", 0x02000, 0x1E000, some true, some .mbc1⟩
  , ⟨"RD_ROM0", 0x00000, 0x1C000, some false, some .mbc1⟩
  , ⟨"RD_ROMX", 0x04000, 0x1C000, none, some .mbc1⟩
  , ⟨"RD_XRAM", 0x0A000, 0x1E000, none, some .mbc1⟩ ]

/-- RD_VRAM, RD_WRAM, RD_ECHO, RD_OAM, RD_UNMAPPED -/
def opcodeRowsPlainRead : List OpcodeRow :=
  [ ⟨"RD_VRAM", 0x08000, 0x1E000, none, none⟩
  , ⟨"RD_WRAM", 0x0C000, 0x1E000, none, none⟩
  , ⟨"RD_ECHO", 0x0E000, 0x1F000, none, none⟩
  , ⟨"RD_ECHO", 0x0F000, 0x1F800, none, none⟩
  , ⟨"RD_ECHO", 0x0F800, 0x1FC00, none, none⟩
  , ⟨"RD_ECHO", 0x0FC00, 0x1FE00, none, none⟩
  , ⟨"RD_OAM", 0x0FE00, 0x1FF80, none, none⟩
  , ⟨"RD_OAM", 0x0FE80, 0x1FFE0, none, none⟩
  , ⟨"RD_UNMAPPED", 0x0FEA0, 0x1FFE0, none, none⟩
  , ⟨"RD_UNMAPPED", 0x0FEC0, 0x1FFC0, none, none⟩
  , ⟨"RD_UNMAPPED", 0x0FFFF, 0x1FFFF, none, none⟩ ]

/-- RD_IO_STUB, RD_IO_BOOT, RD_HRAM -/
def opcodeRowsIoHramRead : List OpcodeRow :=
  [ ⟨"RD_IO_STUB", 0x0FF00, 0x1FFC0, none, none⟩
  , ⟨"RD_IO_STUB", 0x0FF40, 0x1FFF0, none, none⟩
  , ⟨"RD_IO_STUB", 0x0FF51, 0x1FFFF, none, none⟩
  , ⟨"RD_IO_STUB", 0x0FF52, 0x1FFFE, none, none⟩
  , ⟨"RD_IO_STUB", 0x0FF54, 0x1FFFC, none, none⟩
  , ⟨"RD_IO_STUB", 0x0FF58, 0x1FFF8, none, none⟩
  , ⟨"RD_IO_STUB", 0x0FF60, 0x1FFE0, none, none⟩
  , ⟨"RD_IO_BOOT", 0x0FF50, 0x1FFFF, none, none⟩
  , ⟨"RD_HRAM", 0x0FF80, 0x1FFC0, none, none⟩
  , ⟨"RD_HRAM", 0x0FFC0, 0x1FFE0, none, none⟩
  , ⟨"RD_HRAM", 0x0FFE0, 0x1FFF0, none, none⟩
  , ⟨"RD_HRAM", 0x0FFF0, 0x1FFF8, none, none⟩
  , ⟨"RD_HRAM", 0x0FFF8, 0x1FFFC, none, none⟩
  , ⟨"RD_HRAM", 0x0FFFC, 0x1FFFE, none, none⟩
  , ⟨"RD_HRAM", 0x0FFFE, 0x1FFFF, none, none⟩ ]

/-- WR_BIOS, WR_NOCART -/
def opcodeRowsBiosNocartWrite : List OpcodeRow :=
  [ ⟨"WR_BIOS", 0x10000, 0x1FF00, some true, none⟩
  , ⟨"WR_NOCART", 0x10100, 0x1FF00, some true, some .none⟩
  , ⟨"WR_NOCART", 0x10200, 0x1FE00, some true, some .none⟩
  , ⟨"WR_NOCART", 0x10400, 0x1FC00, some true, some .none⟩
  , ⟨"WR_NOCART", 0x10800, 0x1F800, some true, some .none⟩
  , ⟨"WR_NOCART", 0x11000, 0x1F000, some true, some .none⟩
  , ⟨"WR_NOCART", 0x12000, 0x1E000, some true, some .none⟩
  , ⟨"WR_NOCART", 0x14000, 0x1C000, some true, some .none⟩
  , ⟨"WR_NOCART", 0x10000, 0x18000, some false, some .none⟩
  , ⟨"WR_NOCART", 0x1A000, 0x1E000, none, some .none⟩ ]

/-- WR_RAMEN, WR_ROMB, WR_BANKSET, WR_MODE, WR_XRAM -/
def opcodeRowsMbc1Write : List OpcodeRow :=
  [ ⟨"WR_RAMEN", 0x10100, 0x1FF00, some true, some .mbc1⟩
  , ⟨"WR_RAMEN", 0x10200, 0x1FE00, some true, some .mbc1⟩
  , ⟨"WR_RAMEN", 0x10400, 0x1FC00, some true, some .mbc1⟩
  , ⟨"WR_RAMEN", 0x10800, 0x1F800, some true, some .mbc1⟩
  , ⟨"WR_RAMEN", 0x11000, 0x1F000, some true, some .mbc1⟩
  , ⟨"WR_RAMEN", 0x10000, 0x1E000, some false, some .mbc1⟩
  , ⟨"WR_ROMB", 0x12000, 0x1E000, none, some .mbc1⟩
  , ⟨"WR_BANKSET", 0x14000, 0x1E000, none, some .mbc1⟩
  , ⟨"WR_MODE", 0x16000, 0x1E000, none, some .mbc1⟩
  , ⟨"WR_XRAM", 0x1A000, 0x1E000, none, some .mbc1⟩ ]

/-- WR_VRAM, WR_WRAM, WR_ECHO, WR_OAM, WR_UNMAPPED -/
def opcodeRowsPlainWrite : List OpcodeRow :=
  [ ⟨"WR_VRAM", 0x18000, 0x1E000, none, none⟩
  , ⟨"WR_WRAM", 0x1C000, 0x1E000, none, none⟩
  , ⟨"WR_ECHO", 0x1E000, 0x1F000, none, none⟩
  , ⟨"WR_ECHO", 0x1F000, 0x1F800, none, none⟩
  , ⟨"WR_ECHO", 0x1F800, 0x1FC00, none, none⟩
  , ⟨"WR_ECHO", 0x1FC00, 0x1FE00, none, none⟩
  , ⟨"WR_OAM", 0x1FE00, 0x1FF80, none, none⟩
  , ⟨"WR_OAM", 0x1FE80, 0x1FFE0, none, none⟩
  , ⟨"WR_UNMAPPED", 0x1FEA0, 0x1FFE0, none, none⟩
  , ⟨"WR_UNMAPPED", 0x1FEC0, 0x1FFC0, none, none⟩
  , ⟨"WR_UNMAPPED", 0x1FFFF, 0x1FFFF, none, none⟩ ]

/-- WR_IO_STUB, WR_IO_BOOT, WR_HRAM -/
def opcodeRowsIoHramWrite : List OpcodeRow :=
  [ ⟨"WR_IO_STUB", 0x1FF00, 0x1FFC0, none, none⟩
  , ⟨"WR_IO_STUB", 0x1FF40, 0x1FFF0, none, none⟩
  , ⟨"WR_IO_STUB", 0x1FF51, 0x1FFFF, none, none⟩
  , ⟨"WR_IO_STUB", 0x1FF52, 0x1FFFE, none, none⟩
  , ⟨"WR_IO_STUB", 0x1FF54, 0x1FFFC, none, none⟩
  , ⟨"WR_IO_STUB", 0x1FF58, 0x1FFF8, none, none⟩
  , ⟨"WR_IO_STUB", 0x1FF60, 0x1FFE0, none, none⟩
  , ⟨"WR_IO_BOOT", 0x1FF50, 0x1FFFF, none, none⟩
  , ⟨"WR_HRAM", 0x1FF80, 0x1FFC0, none, none⟩
  , ⟨"WR_HRAM", 0x1FFC0, 0x1FFE0, none, none⟩
  , ⟨"WR_HRAM", 0x1FFE0, 0x1FFF0, none, none⟩
  , ⟨"WR_HRAM", 0x1FFF0, 0x1FFF8, none, none⟩
  , ⟨"WR_HRAM", 0x1FFF8, 0x1FFFC, none, none⟩
  , ⟨"WR_HRAM", 0x1FFFC, 0x1FFFE, none, none⟩
  , ⟨"WR_HRAM", 0x1FFFE, 0x1FFFF, none, none⟩ ]

/-- All 91 rows. -/
def opcodeTable : List OpcodeRow :=
  opcodeRowsBiosNocartRead ++
  opcodeRowsMbc1Read ++
  opcodeRowsPlainRead ++
  opcodeRowsIoHramRead ++
  opcodeRowsBiosNocartWrite ++
  opcodeRowsMbc1Write ++
  opcodeRowsPlainWrite ++
  opcodeRowsIoHramWrite

end Sys2Proof
end

