-- ==== Sys2Proof/Machine/State.lean ====
section
/-! DEFINITION. The state vector of 10_state.md R22 as plain data, the fatal record of R39 and 60_exceptions.md R202, the
model's own two interface fields (notes/assumptions 5), and the state after reset (R46). -/

namespace Sys2Proof.Machine

/-- The devices a fatal record can name (R202, its closing list of sizes). -/
inductive Device where
  | bios
  | romBank (b : BitVec 7)
  | ramBank (b : BitVec 2)
  | vram
  | wram
  | oam
  | hram
  | io
  | mbc1
  | null
  deriving DecidableEq, Repr

/-- `Fatal(code, info)`: the fatal codes 2, 3 and 4 of R202 with the info each records.
Code 1 is an error of construction, not a fault of a running block (R203): see `ConstructionError`. -/
inductive Fatal where
  /-- code 2, `DeviceOutOfRange` -/
  | deviceOutOfRange (device : Device) (raw rel : Addr) (size : Nat)
  /-- code 3, `ReoffsetUnderflow` -/
  | reoffsetUnderflow (raw rel shift : Addr)
  /-- code 4, `DecoderOffsetAddress` -/
  | decoderOffsetAddress (raw rel : Addr)
  deriving DecidableEq, Repr

/-- Why a step stops with a fault. -/
inductive Fault where
  /-- Raised by `step` alone, in a state whose `fault` field is set: "A state whose fault != None has no further
  transaction step" (R39, R201, R207). Safe: the spec itself says that the block halts there for good. -/
  | halted (f : Fatal)
  deriving DecidableEq, Repr

/-- Why a step refuses. -/
inductive Refusal where
  /-- Raised by an arm of `exec` whose operation has no meaning yet; no arm does, every operation is modelled. Safe. -/
  | notModelled (mnemonic : String)
  deriving DecidableEq, Repr

/-- One store's bytes: (offset in the store, byte) pairs, offsets strictly rising, no entry equal to
`Config.unlistedByte`, which is what an unlisted offset reads as (`Memory.wf`). -/
abbrev Memory := List Host.Cell

/-- The MBC1 controller (R25 to R31): `mbc.*` of R22. -/
structure Mbc1 where
  /-- `mbc.rom`, 128 banks (R25): byte `o` of bank `b` at the linear image offset `b * 0x4000 + o` (R79) -/
  rom : Memory
  /-- `mbc.ram`, 4 banks (R26): byte `o` of bank `b` at the linear offset `b * 0x2000 + o` (R79) -/
  ram : Memory
  /-- fixed at construction (R27) -/
  hasRam : Bool
  /-- R28 -/
  ramEnable : Bool
  /-- R29: 5 bits, never 0 in a reachable state (R32) -/
  romBank : BitVec 5
  /-- R30 -/
  bankSet : BitVec 2
  /-- R31 -/
  ramMode : Bool
  deriving DecidableEq, Repr

/-- The cartridge selector's closed choice (R24). -/
inductive Cart where
  | none
  | mbc1 (mbc : Mbc1)
  deriving DecidableEq, Repr

/-- `kind(cart)` (R70, R92). -/
def Cart.kind : Cart → CartKind
  | .none => .none
  | .mbc1 _ => .mbc1

/-- The state vector of R22, field for field, and the model's two interface fields `pending` and `reads`. -/
structure State where
  /-- R23 -/
  bios : Memory
  /-- R24 -/
  cart : Cart
  /-- R33 -/
  vram : Memory
  /-- R34 -/
  wram : Memory
  /-- R35 -/
  oam : Memory
  /-- R36 -/
  hram : Memory
  /-- `io.bios_enabled` (R37) -/
  biosEnabled : Bool
  /-- R39 -/
  fault : Option Fatal
  /-- The MODEL's own: the transactions the host has yet to issue, the next one first (R8, R80; notes/assumptions 5). -/
  pending : List Transaction
  /-- The MODEL's own: "the sequence of read results" (92_eei_decisions.md D14), the oldest first
  (notes/assumptions 5). -/
  reads : List Byte
  deriving DecidableEq, Repr

/-- The MBC1 registers after construction (R46, R230): RAM disabled, `rom_bank` 1, `bank_set` 0, mode false. -/
def Mbc1.constructed (rom ram : Memory) (hasRam : Bool) : Mbc1 :=
  { rom := rom, ram := ram, hasRam := hasRam, ramEnable := false, romBank := 1, bankSet := 0, ramMode := false }

/-- The block right after construction (R46, R230), for one choice of the construction parameters
(notes/assumptions 1, 2): every store lists nothing, and a RAM-capable MBC1 is present. -/
def State.reset : State :=
  { bios := []
    cart := .mbc1 (Mbc1.constructed [] [] Config.resetHasRam)
    vram := []
    wram := []
    oam := []
    hram := []
    biosEnabled := true
    fault := none
    pending := []
    reads := [] }

end Sys2Proof.Machine
end

