-- ==== Sys2Proof/Machine/Ops.lean ====
section
/-! DEFINITION. The shared operations: a store's bytes, the address record (20_memory.md R60 to R62), the device
primitives (R63 to R68), the top-level precondition (R69), taking a fatal (60_exceptions.md R201, R206), and how an access
ends. There is no return from a fatal: "No operation leaves the fatal state" (R207). -/

namespace Sys2Proof.Machine

/-! ## One store's bytes -/

/-- The byte at offset `k`; an unlisted offset reads `Config.unlistedByte`. -/
def Memory.read : Memory → Nat → Byte
  | [], _ => Config.unlistedByte
  | (k', v) :: m, k => if k' = k then v else Memory.read m k

/-- Drop every entry at offset `k`. -/
def Memory.remove (m : Memory) (k : Nat) : Memory := m.filter fun c => c.1 ≠ k

/-- Put an entry before the first one at a greater offset. -/
def Memory.insert : Memory → Nat → Byte → Memory
  | [], k, v => [(k, v)]
  | (k', v') :: m, k, v => if k < k' then (k, v) :: (k', v') :: m else (k', v') :: Memory.insert m k v

/-- Store a byte at offset `k`, keeping the canonical form. -/
def Memory.write (m : Memory) (k : Nat) (v : Byte) : Memory :=
  if v = Config.unlistedByte then Memory.remove m k else Memory.insert (Memory.remove m k) k v

/-- The bytes of a list from offset `k` on, as a store. -/
def Memory.ofBytesFrom : Nat → List Byte → Memory
  | _, [] => []
  | k, v :: vs => if v = Config.unlistedByte then Memory.ofBytesFrom (k + 1) vs else (k, v) :: Memory.ofBytesFrom (k + 1) vs

/-- A byte image as a store, its first byte at offset 0. -/
def Memory.ofBytes (bs : List Byte) : Memory := Memory.ofBytesFrom 0 bs

/-- Every offset is at least `k`, offsets rise strictly, and no entry is the unlisted byte. -/
def Memory.wfFrom : Nat → Memory → Bool
  | _, [] => true
  | k, (k', v) :: m => decide (k ≤ k') && decide (v ≠ Config.unlistedByte) && Memory.wfFrom (k' + 1) m

/-- The canonical form: offsets strictly rising, no entry equal to what an unlisted offset reads as. -/
def Memory.wf (m : Memory) : Bool := Memory.wfFrom 0 m

/-- Every listed offset lies inside a store of `size` bytes. -/
def Memory.within (m : Memory) (size : Nat) : Bool := m.all fun c => decide (c.1 < size)

/-! ## The address record -/

/-- `raw`, "as issued by the accessing party", and `rel`, the offset within the current device (R60). -/
structure Address where
  raw : Addr
  rel : Addr
  deriving DecidableEq, Repr

/-- `NewAddress(A)` (R60). -/
def newAddress (a : Addr) : Address := ⟨a, a⟩

/-- `offset(a) = a.raw - a.rel` (R61). -/
def Address.offset (a : Address) : Addr := a.raw - a.rel

/-- `Reoffset(a, shift)` (R62): fatal, code 3, if `shift > rel`. -/
def reoffset (a : Address) (shift : Addr) : Except Fatal Address :=
  if shift > a.rel then .error (.reoffsetUnderflow a.raw a.rel shift)
  else .ok ⟨a.raw, a.rel - shift⟩

/-- The top-level precondition `a.rel == a.raw` (R69): fatal, code 4, otherwise. -/
def checkFresh (a : Address) : Except Fatal Address :=
  if a.rel = a.raw then .ok a else .error (.decoderOffsetAddress a.raw a.rel)

/-- Go on with a value, or stop at the first failing check (R205). -/
def orFatal {α β : Type} (r : Except Fatal α) (k : α → Except Fatal β) : Except Fatal β :=
  match r with
  | .ok x => k x
  | .error f => .error f

/-! ## Device primitives -/

/-- The device sizes of code 2 (R202). -/
def Device.size : Device → Nat
  | .bios => Config.biosSize
  | .romBank _ => Config.romBankSize
  | .ramBank _ => Config.ramBankSize
  | .vram => Config.vramSize
  | .wram => Config.wramSize
  | .oam => Config.oamSize
  | .hram => Config.hramSize
  | .io => Config.ioSize
  | .mbc1 => Config.mbc1WindowSize
  | .null => Config.nullCartSize

/-- Where a device's bytes begin in the store that holds them: a bank's linear image offset (R79), else 0. -/
def Device.base : Device → Nat
  | .romBank b => b.toNat * Config.romBankSize
  | .ramBank b => b.toNat * Config.ramBankSize
  | .bios | .vram | .wram | .oam | .hram | .io | .mbc1 | .null => 0

/-- The device bounds check (R63): fatal, code 2, if `rel` lies outside the device's declared size. -/
def inBounds (dev : Device) (a : Address) : Except Fatal Address :=
  if a.rel.toNat ≥ dev.size then .error (.deviceOutOfRange dev a.raw a.rel dev.size) else .ok a

/-- `ArrRead(dev, a)` (R64): `dev[a.rel]`, `dev`'s bytes being those of the store `m` from its base on. -/
def arrRead (dev : Device) (m : Memory) (a : Address) : Except Fatal Byte :=
  orFatal (inBounds dev a) fun a => .ok (Memory.read m (dev.base + a.rel.toNat))

/-- `ArrWrite(dev, a, v)` (R64): the store after it. -/
def arrWrite (dev : Device) (m : Memory) (a : Address) (v : Byte) : Except Fatal Memory :=
  orFatal (inBounds dev a) fun a => .ok (Memory.write m (dev.base + a.rel.toNat) v)

/-- `NullRead(N, a)` (R65), for the null cartridge: reads 0 after the bounds check. -/
def nullRead (a : Address) : Except Fatal Byte :=
  orFatal (inBounds .null a) fun _ => .ok 0x00

/-- `NullWrite(N, a, v)` (R65): bounds-checks and discards, so the state `s` is what is left. -/
def nullWrite {σ : Type} (a : Address) (s : σ) : Except Fatal σ :=
  orFatal (inBounds .null a) fun _ => .ok s

/-- `ROWrite(dev, a, v)` (R66): performs the inner read for its bounds check and discards everything. -/
def roWrite {σ : Type} (dev : Device) (m : Memory) (a : Address) (s : σ) : Except Fatal σ :=
  orFatal (arrRead dev m a) fun _ => .ok s

/-! ## The cartridge selector -/

/-- A read routed to the cartridge (R96, R150): the null device when there is none, else the MBC1's own `k`. -/
def cartRead (s : State) (a : Address) (k : Mbc1 → Address → Except Fatal Byte) : Except Fatal Byte :=
  match s.cart with
  | .none => nullRead a
  | .mbc1 c => k c a

/-- A write routed to the cartridge (R96, R150); `k` answers the controller after it. -/
def cartWrite (s : State) (a : Address) (k : Mbc1 → Address → Except Fatal Mbc1) : Except Fatal State :=
  match s.cart with
  | .none => nullWrite a s
  | .mbc1 c => orFatal (k c a) fun c' => .ok { s with cart := .mbc1 c' }

/-! ## How an access ends -/

/-- The mode inputs of the decode in a state (R92). -/
def State.mode (s : State) : Mode := ⟨s.biosEnabled, s.cart.kind⟩

/-- Taking a fatal (R201, R206): saves `Fatal(code, info)` in `fault` and nothing else. -/
def State.enterFatal (s : State) (f : Fatal) : State := { s with fault := some f }

/-- `return v` (R12): the transaction's read data, added to the sequence of read results. -/
def State.deliver (s : State) (v : Byte) : State := { s with reads := s.reads ++ [v] }

/-- The outcome of a read: its byte is returned, or a fatal is taken and no byte is returned (R201). -/
def endRead (s : State) (r : Except Fatal Byte) : Host.Outcome State Fault Refusal :=
  match r with
  | .ok v => .next (s.deliver v)
  | .error f => .next (s.enterFatal f)

/-- The outcome of a write: the state it leaves, or a fatal is taken from the state before it (R201). -/
def endWrite (s : State) (r : Except Fatal State) : Host.Outcome State Fault Refusal :=
  match r with
  | .ok s' => .next s'
  | .error f => .next (s.enterFatal f)

end Sys2Proof.Machine
end

