-- ==== Sys2Proof/Machine/Operands.lean ====
section
/-! DEFINITION. Operand assembly: the data-byte fields of 30_encoding.md R101 and the two effective banks, computed from
the registers at each access (41_cartridge_mbc1.md R155 to R157). -/

namespace Sys2Proof.Machine

/-- D[3:0], compared with 0xA: "(value & 0xF) == 0xA" (R98, R161). -/
def ramEnableKey (d : Byte) : Bool := d &&& 0x0F == 0x0A

/-- D[4:0], 0 becomes 1: "max(value & 0x1F, 1)" (R98, R162). -/
def romBankField (d : Byte) : BitVec 5 :=
  if d.setWidth 5 = 0 then 1 else d.setWidth 5

/-- D[1:0]: "value & 0x3" (R98, R163). -/
def bankSetField (d : Byte) : BitVec 2 := d.setWidth 2

/-- D[0] as a Boolean: "(value & 1) != 0" (R98, R164; R194). -/
def bit0 (d : Byte) : Bool := d &&& 1 != 0

/-- `high_order`: 0 if `ram_mode` else `bank_set` (R156). -/
def Mbc1.highOrder (c : Mbc1) : BitVec 2 := if c.ramMode then 0 else c.bankSet

/-- `EffRomBank() = (high_order << 5) | rom_bank`, 7 bits (R156). -/
def Mbc1.effRomBank (c : Mbc1) : BitVec 7 := (c.highOrder.setWidth 7 <<< 5) ||| c.romBank.setWidth 7

/-- `EffRamBank()`: `bank_set` if `ram_mode` else 0, 2 bits (R157). -/
def Mbc1.effRamBank (c : Mbc1) : BitVec 2 := if c.ramMode then c.bankSet else 0

end Sys2Proof.Machine
end

