-- ==== Sys2Proof/Machine/Flags.lean ====
section
/-! DEFINITION. The writable flags of 10_state.md R41: what a register write leaves in each. The block has no condition
codes (R41), and `has_ram` is written by nothing (R27). -/

namespace Sys2Proof.Machine

/-- `ram_enable = has_ram AND (value & 0xF) == 0xA` (R98, R161). -/
def ramEnableAfter (hasRam : Bool) (d : Byte) : Bool := hasRam && ramEnableKey d

/-- `ram_mode = has_ram AND (value & 1) != 0` (R98, R164). -/
def ramModeAfter (hasRam : Bool) (d : Byte) : Bool := hasRam && bit0 d

/-- The one-way latch (R194): D[0] = 1 clears it, D[0] = 0 has no effect. -/
def biosEnabledAfter (biosEnabled : Bool) (d : Byte) : Bool := if bit0 d then false else biosEnabled

/-- The byte that a read of the latch returns: "1 if bios is enabled, 0 otherwise" (R193). -/
def biosEnabledByte (biosEnabled : Bool) : Byte := if biosEnabled then 0x01 else 0x00

end Sys2Proof.Machine
end

