-- ==== Sys2Proof/Machine/Cartridge.lean ====
section
/-! DEFINITION. The cartridge operations, 41_cartridge_mbc1.md R151 to R165. Each goes through the cartridge selector
(R150): with no cartridge an MBC1 operation meets the null device, a case the decoder never gives (notes/assumptions 4). -/

namespace Sys2Proof.Machine

/-- The address that the cartridge sees (R93, R99): unchanged below 0xA000, re-offset by 0x2000 from there on. -/
def cartAddress (a : Addr) : Except Fatal Address :=
  if a ≥ 0xA000 then reoffset (newAddress a) 0x2000 else .ok (newAddress a)

/-- RD_NOCART (R151): `NullRead(0x10000, a)`. -/
def execRdNocart (a : Addr) (s : State) : Host.Outcome State Fault Refusal :=
  endRead s (orFatal (cartAddress a) nullRead)

/-- WR_NOCART (R152): `NullWrite(0x10000, a, D)`. -/
def execWrNocart (a : Addr) (_d : Byte) (s : State) : Host.Outcome State Fault Refusal :=
  endWrite s (orFatal (cartAddress a) fun x => nullWrite x s)

/-- RD_ROM0 (R158): `ArrRead(mbc.rom[0], a)`, whatever the registers hold. -/
def execRdRom0 (a : Addr) (s : State) : Host.Outcome State Fault Refusal :=
  endRead s (cartRead s (newAddress a) fun c x => arrRead (.romBank 0) c.rom x)

/-- RD_ROMX (R159): bank `EffRomBank()`, read now (R155). -/
def execRdRomx (a : Addr) (s : State) : Host.Outcome State Fault Refusal :=
  endRead s (cartRead s (newAddress a) fun c x =>
    orFatal (reoffset x 0x4000) fun y => arrRead (.romBank c.effRomBank) c.rom y)

/-- RD_XRAM (R160): the effective RAM bank while `ram_enable`, else 0x00. -/
def execRdXram (a : Addr) (s : State) : Host.Outcome State Fault Refusal :=
  endRead s (orFatal (reoffset (newAddress a) 0x2000) fun x => cartRead s x fun c y =>
    if c.ramEnable then
      orFatal (reoffset y 0x8000) fun z => arrRead (.ramBank c.effRamBank) c.ram z
    else .ok 0x00)

/-- WR_RAMEN (R161): writes `mbc.ram_enable` only. -/
def execWrRamen (a : Addr) (d : Byte) (s : State) : Host.Outcome State Fault Refusal :=
  endWrite s (cartWrite s (newAddress a) fun c _ => .ok { c with ramEnable := ramEnableAfter c.hasRam d })

/-- WR_ROMB (R162): writes `mbc.rom_bank` only. -/
def execWrRomb (a : Addr) (d : Byte) (s : State) : Host.Outcome State Fault Refusal :=
  endWrite s (cartWrite s (newAddress a) fun c _ => .ok { c with romBank := romBankField d })

/-- WR_BANKSET (R163): writes `mbc.bank_set` only. -/
def execWrBankset (a : Addr) (d : Byte) (s : State) : Host.Outcome State Fault Refusal :=
  endWrite s (cartWrite s (newAddress a) fun c _ => .ok { c with bankSet := bankSetField d })

/-- WR_MODE (R164): writes `mbc.ram_mode` only. -/
def execWrMode (a : Addr) (d : Byte) (s : State) : Host.Outcome State Fault Refusal :=
  endWrite s (cartWrite s (newAddress a) fun c _ => .ok { c with ramMode := ramModeAfter c.hasRam d })

/-- WR_XRAM (R165): one byte of the effective RAM bank if `has_ram AND ram_enable`, else discarded. -/
def execWrXram (a : Addr) (d : Byte) (s : State) : Host.Outcome State Fault Refusal :=
  endWrite s (orFatal (reoffset (newAddress a) 0x2000) fun x => cartWrite s x fun c y =>
    if c.hasRam && c.ramEnable then
      orFatal (reoffset y 0x8000) fun z =>
        orFatal (arrWrite (.ramBank c.effRamBank) c.ram z d) fun m => .ok { c with ram := m }
    else .ok c)

end Sys2Proof.Machine
end

