-- ==== Sys2Proof/Machine/IoBlock.lean ====
section
/-! DEFINITION. The I/O block operations, 42_io_block.md R191 to R194. -/

namespace Sys2Proof.Machine

/-- The address that the I/O block sees (R190): re-offset by 0xFF00 and inside the 0x80-byte window. -/
def ioAddress (a : Addr) : Except Fatal Address :=
  orFatal (reoffset (newAddress a) 0xFF00) (inBounds .io)

/-- RD_IO_STUB (R191): "read as 0xFF". -/
def execRdIoStub (a : Addr) (s : State) : Host.Outcome State Fault Refusal :=
  endRead s (orFatal (ioAddress a) fun _ => .ok 0xFF)

/-- WR_IO_STUB (R192): "ignore writes". -/
def execWrIoStub (a : Addr) (_d : Byte) (s : State) : Host.Outcome State Fault Refusal :=
  endWrite s (orFatal (ioAddress a) fun _ => .ok s)

/-- RD_IO_BOOT (R193): the latch, as 0x01 or 0x00. -/
def execRdIoBoot (s : State) : Host.Outcome State Fault Refusal :=
  endRead s (orFatal (ioAddress Config.bootAddr) fun _ => .ok (biosEnabledByte s.biosEnabled))

/-- WR_IO_BOOT (R194): `if D[0] == 1 then io.bios_enabled <- false`. -/
def execWrIoBoot (d : Byte) (s : State) : Host.Outcome State Fault Refusal :=
  endWrite s (orFatal (ioAddress Config.bootAddr) fun _ => .ok { s with biosEnabled := biosEnabledAfter s.biosEnabled d })

end Sys2Proof.Machine
end

