-- ==== Sys2Proof/Machine/PlainMemory.lean ====
section
/-! DEFINITION. The plain memory operations, 40_plain_memory.md R124 to R137: each is the pseudocode of its rule. -/

namespace Sys2Proof.Machine

/-- RD_BIOS (R124): `a <- NewAddress(A); return ArrRead(bios, a)`. -/
def execRdBios (a : Addr) (s : State) : Host.Outcome State Fault Refusal :=
  endRead s (arrRead .bios s.bios (newAddress a))

/-- WR_BIOS (R125): `ROWrite(bios, a, D)`; the write is dropped. -/
def execWrBios (a : Addr) (_d : Byte) (s : State) : Host.Outcome State Fault Refusal :=
  endWrite s (roWrite .bios s.bios (newAddress a) s)

/-- RD_VRAM (R126). -/
def execRdVram (a : Addr) (s : State) : Host.Outcome State Fault Refusal :=
  endRead s (orFatal (reoffset (newAddress a) 0x8000) fun x => arrRead .vram s.vram x)

/-- WR_VRAM (R127). -/
def execWrVram (a : Addr) (d : Byte) (s : State) : Host.Outcome State Fault Refusal :=
  endWrite s (orFatal (reoffset (newAddress a) 0x8000) fun x =>
    orFatal (arrWrite .vram s.vram x d) fun m => .ok { s with vram := m })

/-- RD_WRAM (R128). -/
def execRdWram (a : Addr) (s : State) : Host.Outcome State Fault Refusal :=
  endRead s (orFatal (reoffset (newAddress a) 0xC000) fun x => arrRead .wram s.wram x)

/-- WR_WRAM (R129). -/
def execWrWram (a : Addr) (d : Byte) (s : State) : Host.Outcome State Fault Refusal :=
  endWrite s (orFatal (reoffset (newAddress a) 0xC000) fun x =>
    orFatal (arrWrite .wram s.wram x d) fun m => .ok { s with wram := m })

/-- RD_ECHO (R130): working RAM through the mirror. -/
def execRdEcho (a : Addr) (s : State) : Host.Outcome State Fault Refusal :=
  endRead s (orFatal (reoffset (newAddress a) 0xE000) fun x => arrRead .wram s.wram x)

/-- WR_ECHO (R131). -/
def execWrEcho (a : Addr) (d : Byte) (s : State) : Host.Outcome State Fault Refusal :=
  endWrite s (orFatal (reoffset (newAddress a) 0xE000) fun x =>
    orFatal (arrWrite .wram s.wram x d) fun m => .ok { s with wram := m })

/-- RD_OAM (R132). -/
def execRdOam (a : Addr) (s : State) : Host.Outcome State Fault Refusal :=
  endRead s (orFatal (reoffset (newAddress a) 0xFE00) fun x => arrRead .oam s.oam x)

/-- WR_OAM (R133). -/
def execWrOam (a : Addr) (d : Byte) (s : State) : Host.Outcome State Fault Refusal :=
  endWrite s (orFatal (reoffset (newAddress a) 0xFE00) fun x =>
    orFatal (arrWrite .oam s.oam x d) fun m => .ok { s with oam := m })

/-- RD_UNMAPPED (R134): "unmapped: read 0". -/
def execRdUnmapped (_a : Addr) (s : State) : Host.Outcome State Fault Refusal :=
  endRead s (.ok 0x00)

/-- WR_UNMAPPED (R135): "write discarded". -/
def execWrUnmapped (_a : Addr) (_d : Byte) (s : State) : Host.Outcome State Fault Refusal :=
  endWrite s (.ok s)

/-- RD_HRAM (R136). -/
def execRdHram (a : Addr) (s : State) : Host.Outcome State Fault Refusal :=
  endRead s (orFatal (reoffset (newAddress a) 0xFF80) fun x => arrRead .hram s.hram x)

/-- WR_HRAM (R137). -/
def execWrHram (a : Addr) (d : Byte) (s : State) : Host.Outcome State Fault Refusal :=
  endWrite s (orFatal (reoffset (newAddress a) 0xFF80) fun x =>
    orFatal (arrWrite .hram s.hram x d) fun m => .ok { s with hram := m })

end Sys2Proof.Machine
end

