-- ==== Sys2Proof/Machine/Dispatch.lean ====
section
/-! DEFINITION. One arm for each operation of 30_encoding.md R100: the meaning of each. -/

namespace Sys2Proof.Machine

/-- `Exec_read(op, a)` and `Exec_write(op, a, D)` of 20_memory.md R70 and R71. -/
def exec (i : Instr) (s : State) : Host.Outcome State Fault Refusal :=
  match i with
  | .rdBios a => Sys2Proof.Machine.execRdBios a s
  | .wrBios a d => Sys2Proof.Machine.execWrBios a d s
  | .rdVram a => Sys2Proof.Machine.execRdVram a s
  | .wrVram a d => Sys2Proof.Machine.execWrVram a d s
  | .rdWram a => Sys2Proof.Machine.execRdWram a s
  | .wrWram a d => Sys2Proof.Machine.execWrWram a d s
  | .rdEcho a => Sys2Proof.Machine.execRdEcho a s
  | .wrEcho a d => Sys2Proof.Machine.execWrEcho a d s
  | .rdOam a => Sys2Proof.Machine.execRdOam a s
  | .wrOam a d => Sys2Proof.Machine.execWrOam a d s
  | .rdUnmapped a => Sys2Proof.Machine.execRdUnmapped a s
  | .wrUnmapped a d => Sys2Proof.Machine.execWrUnmapped a d s
  | .rdHram a => Sys2Proof.Machine.execRdHram a s
  | .wrHram a d => Sys2Proof.Machine.execWrHram a d s
  | .rdNocart a => Sys2Proof.Machine.execRdNocart a s
  | .wrNocart a d => Sys2Proof.Machine.execWrNocart a d s
  | .rdRom0 a => Sys2Proof.Machine.execRdRom0 a s
  | .rdRomx a => Sys2Proof.Machine.execRdRomx a s
  | .rdXram a => Sys2Proof.Machine.execRdXram a s
  | .wrRamen a d => Sys2Proof.Machine.execWrRamen a d s
  | .wrRomb a d => Sys2Proof.Machine.execWrRomb a d s
  | .wrBankset a d => Sys2Proof.Machine.execWrBankset a d s
  | .wrMode a d => Sys2Proof.Machine.execWrMode a d s
  | .wrXram a d => Sys2Proof.Machine.execWrXram a d s
  | .rdIoStub a => Sys2Proof.Machine.execRdIoStub a s
  | .wrIoStub a d => Sys2Proof.Machine.execWrIoStub a d s
  | .rdIoBoot => Sys2Proof.Machine.execRdIoBoot s
  | .wrIoBoot d => Sys2Proof.Machine.execWrIoBoot d s

end Sys2Proof.Machine
end

