-- ==== Sys2Proof/Machine/Transact.lean ====
section
/-! DEFINITION. One whole transaction, 20_memory.md R70 and R71. -/

namespace Sys2Proof.Machine

/-- `MemRead(A, 1)` and `MemWrite(A, 1, D)` past their `require fault == None`, which `step` checks: a fresh address, the
top-level precondition (R69), the decode in the state's mode (R106), and the operation's own rule. -/
def transact (t : Transaction) (s : State) : Host.Outcome State Fault Refusal :=
  match checkFresh (newAddress t.addr) with
  | .ok _ => exec (decode s.mode t) s
  | .error f => .next (s.enterFatal f)

end Sys2Proof.Machine
end

