-- ==== Sys2Proof/Machine/Step.lean ====
section
/-! DEFINITION. One step: the next transaction that the host issues (92_eei_decisions.md D1, D14), and how a table word is
placed as that transaction. -/

namespace Sys2Proof.Machine

/-- A faulted state has no further transaction step (R39, R201). With no transaction waiting the block holds its state
(R7, R215). Otherwise the next transaction runs (R70, R71, R80). -/
def step (s : State) : Host.Outcome State Fault Refusal :=
  match s.fault with
  | some f => .fault (.halted f)
  | none =>
    match s.pending with
    | [] => .next s
    | t :: rest => transact t { s with pending := rest }

/-- `s` with the transaction whose table word is `w` as the next that the host issues; the ones that were waiting come
after it. A word that is no transaction changes nothing (notes/assumptions 7). -/
def State.withFetchWord (s : State) (nbits w : Nat) : State :=
  match tableTransaction nbits w with
  | .ok t => { s with pending := t :: s.pending }
  | .error _ => s

end Sys2Proof.Machine
end

