-- ==== Sys2Proof/Machine/Cells.lean ====
section
/-! DEFINITION. Storage cells: "the backing byte selected by rules R79 and R94, not the bus address" (20_memory.md R80).
Frames and the consistency of memory are said over these. -/

namespace Sys2Proof.Machine

/-- One backing byte: a storing device and an offset in it, for example `mbc.ram[b][o]` or `wram[i]` (R22). -/
structure Cell where
  dev : Device
  off : Nat
  deriving DecidableEq, Repr

/-- A device of R22 that holds bytes. -/
def Device.holdsBytes : Device → Bool
  | .bios | .romBank _ | .ramBank _ | .vram | .wram | .oam | .hram => true
  | .io | .mbc1 | .null => false

/-- The cell exists: its device holds bytes and its offset is inside the device (R22). -/
def Cell.valid (c : Cell) : Bool := c.dev.holdsBytes && decide (c.off < c.dev.size)

/-- The store that holds a device's bytes; with no cartridge there are no banks (R24). -/
def State.store (s : State) : Device → Memory
  | .bios => s.bios
  | .romBank _ => match s.cart with
    | .none => []
    | .mbc1 c => c.rom
  | .ramBank _ => match s.cart with
    | .none => []
    | .mbc1 c => c.ram
  | .vram => s.vram
  | .wram => s.wram
  | .oam => s.oam
  | .hram => s.hram
  | .io | .mbc1 | .null => []

/-- The byte in a cell: the model's read of one byte. -/
def State.cell (s : State) (c : Cell) : Byte := Memory.read (s.store c.dev) (c.dev.base + c.off)

/-- The cell that an operation's address reaches, as the rules of R124 to R165 compute it; none where the operation reads
a constant or the latch, or is discarded. -/
def opCell (s : State) : Instr → Option Cell
  | .rdBios a => some ⟨.bios, a.toNat⟩
  | .rdVram a | .wrVram a _ => some ⟨.vram, (a - 0x8000).toNat⟩
  | .rdWram a | .wrWram a _ => some ⟨.wram, (a - 0xC000).toNat⟩
  | .rdEcho a | .wrEcho a _ => some ⟨.wram, (a - 0xE000).toNat⟩
  | .rdOam a | .wrOam a _ => some ⟨.oam, (a - 0xFE00).toNat⟩
  | .rdHram a | .wrHram a _ => some ⟨.hram, (a - 0xFF80).toNat⟩
  | .rdRom0 a => some ⟨.romBank 0, a.toNat⟩
  | .rdRomx a => match s.cart with
    | .none => none
    | .mbc1 c => some ⟨.romBank c.effRomBank, (a - 0x4000).toNat⟩
  | .rdXram a => match s.cart with
    | .none => none
    | .mbc1 c => if c.ramEnable then some ⟨.ramBank c.effRamBank, (a - 0xA000).toNat⟩ else none
  | .wrXram a _ => match s.cart with
    | .none => none
    | .mbc1 c => if c.hasRam && c.ramEnable then some ⟨.ramBank c.effRamBank, (a - 0xA000).toNat⟩ else none
  | .wrBios _ _ | .rdUnmapped _ | .wrUnmapped _ _ | .rdNocart _ | .wrNocart _ _ | .wrRamen _ _ | .wrRomb _ _
  | .wrBankset _ _ | .wrMode _ _ | .rdIoStub _ | .wrIoStub _ _ | .rdIoBoot | .wrIoBoot _ => none

/-- The cell that a transaction reaches in a state (R79, R94). -/
def txCell (s : State) (t : Transaction) : Option Cell := opCell s (decode s.mode t)

end Sys2Proof.Machine
end

