-- ==== Sys2Proof/Machine/Route.lean ====
section
/-! DEFINITION. The two-level address decode as the source's tables give it: the routing table of 30_encoding.md R93 and
R94, the cartridge selector (R96) and the MBC1's own read and write tables (R97, R98, R153), over address records.
The machine runs the operations of R100; "Rules R93–R100 are equivalent" (R106) is a statement about the two. -/

namespace Sys2Proof.Machine

/-- "else: fatal: address out of range" of the MBC1's tables (R97, R98, R153): code 2 with size 0xA000. -/
def mbc1OutOfRange (a : Address) : Fatal :=
  .deviceOutOfRange .mbc1 a.raw a.rel Config.mbc1WindowSize

/-- The MBC1 read table (R97). -/
def mbc1Read (c : Mbc1) (a : Address) : Except Fatal Byte :=
  if a.rel ≤ 0x3FFF then arrRead (.romBank 0) c.rom a
  else if a.rel ≤ 0x7FFF then
    orFatal (reoffset a 0x4000) fun x => arrRead (.romBank c.effRomBank) c.rom x
  else if a.rel ≤ 0x9FFF then
    if c.ramEnable then
      orFatal (reoffset a 0x8000) fun x => arrRead (.ramBank c.effRamBank) c.ram x
    else .ok 0x00
  else .error (mbc1OutOfRange a)

/-- The MBC1 write table (R98). -/
def mbc1Write (c : Mbc1) (a : Address) (d : Byte) : Except Fatal Mbc1 :=
  if a.rel ≤ 0x1FFF then .ok { c with ramEnable := ramEnableAfter c.hasRam d }
  else if a.rel ≤ 0x3FFF then .ok { c with romBank := romBankField d }
  else if a.rel ≤ 0x5FFF then .ok { c with bankSet := bankSetField d }
  else if a.rel ≤ 0x7FFF then .ok { c with ramMode := ramModeAfter c.hasRam d }
  else if a.rel ≤ 0x9FFF then
    if c.hasRam && c.ramEnable then
      orFatal (reoffset a 0x8000) fun x =>
        orFatal (arrWrite (.ramBank c.effRamBank) c.ram x d) fun m => .ok { c with ram := m }
    else .ok c
  else .error (mbc1OutOfRange a)

/-- The I/O block's read (R190, R191, R193), on its own relative address. -/
def ioRead (biosEnabled : Bool) (a : Address) : Except Fatal Byte :=
  orFatal (inBounds .io a) fun a =>
    if a.rel = Config.bootOffset then .ok (biosEnabledByte biosEnabled) else .ok 0xFF

/-- The I/O block's write (R190, R192, R194): the latch after it. -/
def ioWrite (biosEnabled : Bool) (a : Address) (d : Byte) : Except Fatal Bool :=
  orFatal (inBounds .io a) fun a =>
    if a.rel = Config.bootOffset then .ok (biosEnabledAfter biosEnabled d) else .ok biosEnabled

/-- The top-level decoder's read, entered with any address record: the precondition (R69), then the rows of R93. -/
def topRead (s : State) (a : Address) : Except Fatal Byte :=
  orFatal (checkFresh a) fun a =>
    if a.raw ≤ 0x00FF && s.biosEnabled then arrRead .bios s.bios a
    else if a.raw ≤ 0x7FFF then cartRead s a mbc1Read
    else if a.raw ≤ 0x9FFF then orFatal (reoffset a 0x8000) fun x => arrRead .vram s.vram x
    else if a.raw ≤ 0xBFFF then orFatal (reoffset a 0x2000) fun x => cartRead s x mbc1Read
    else if a.raw ≤ 0xDFFF then orFatal (reoffset a 0xC000) fun x => arrRead .wram s.wram x
    else if a.raw ≤ 0xFDFF then orFatal (reoffset a 0xE000) fun x => arrRead .wram s.wram x
    else if a.raw ≤ 0xFE9F then orFatal (reoffset a 0xFE00) fun x => arrRead .oam s.oam x
    else if a.raw ≤ 0xFEFF then .ok 0x00
    else if a.raw ≤ 0xFF7F then orFatal (reoffset a 0xFF00) fun x => ioRead s.biosEnabled x
    else if a.raw ≤ 0xFFFE then orFatal (reoffset a 0xFF80) fun x => arrRead .hram s.hram x
    else .ok 0x00

/-- The top-level decoder's write: "identical shape for read and write, value direction differs" (R93). -/
def topWrite (s : State) (a : Address) (d : Byte) : Except Fatal State :=
  orFatal (checkFresh a) fun a =>
    if a.raw ≤ 0x00FF && s.biosEnabled then roWrite .bios s.bios a s
    else if a.raw ≤ 0x7FFF then cartWrite s a fun c x => mbc1Write c x d
    else if a.raw ≤ 0x9FFF then orFatal (reoffset a 0x8000) fun x =>
      orFatal (arrWrite .vram s.vram x d) fun m => .ok { s with vram := m }
    else if a.raw ≤ 0xBFFF then orFatal (reoffset a 0x2000) fun x =>
      cartWrite s x fun c y => mbc1Write c y d
    else if a.raw ≤ 0xDFFF then orFatal (reoffset a 0xC000) fun x =>
      orFatal (arrWrite .wram s.wram x d) fun m => .ok { s with wram := m }
    else if a.raw ≤ 0xFDFF then orFatal (reoffset a 0xE000) fun x =>
      orFatal (arrWrite .wram s.wram x d) fun m => .ok { s with wram := m }
    else if a.raw ≤ 0xFE9F then orFatal (reoffset a 0xFE00) fun x =>
      orFatal (arrWrite .oam s.oam x d) fun m => .ok { s with oam := m }
    else if a.raw ≤ 0xFEFF then .ok s
    else if a.raw ≤ 0xFF7F then orFatal (reoffset a 0xFF00) fun x =>
      orFatal (ioWrite s.biosEnabled x d) fun b => .ok { s with biosEnabled := b }
    else if a.raw ≤ 0xFFFE then orFatal (reoffset a 0xFF80) fun x =>
      orFatal (arrWrite .hram s.hram x d) fun m => .ok { s with hram := m }
    else .ok s

/-- A transaction through the tables, from the host's call `read(A)` or `write(A, D)`. -/
def routed (t : Transaction) (s : State) : Host.Outcome State Fault Refusal :=
  match t with
  | .read a => endRead s (topRead s (newAddress a))
  | .write a d => endWrite s (topWrite s (newAddress a) d)

end Sys2Proof.Machine
end

