-- ==== Sys2Proof/Machine/Construct.lean ====
section
/-! DEFINITION. Construction, the block's only reset: 70_reset_and_hazards.md R230 and R231, with the parameters of
00_scope.md R6. `State.reset` is what it gives for one choice of them. -/

namespace Sys2Proof.Machine

/-- The recoverable error of construction, code 1 (R202, R203): "a size-mismatch error reporting the actual byte count".
It is a result of the construction, not a state of the block. -/
inductive ConstructionError where
  | biosSizeMismatch (actual : Nat)
  deriving DecidableEq, Repr

/-- The code numbers of R202. -/
def ConstructionError.code : ConstructionError → Nat
  | .biosSizeMismatch _ => 1

/-- The code numbers of R202. -/
def Fatal.code : Fatal → Nat
  | .deviceOutOfRange .. => 2
  | .reoffsetUnderflow .. => 3
  | .decoderOffsetAddress .. => 4

/-- What the loader supplies (R6): nothing, or 128 ROM banks as one image, the RAM banks it fills (at most four, the first
ones), and the RAM-capability flag. -/
inductive LoadedCart where
  | none
  | mbc1 (rom : Memory) (ramBanks : List Memory) (hasRam : Bool)
  deriving DecidableEq, Repr

/-- The OPEN parameters (92_eei_decisions.md D3, D4): the initial bytes of the four arrays, and those of the cartridge RAM
slots that the loader does not fill, at their linear offsets. -/
structure InitRam where
  vram : Memory
  wram : Memory
  oam : Memory
  hram : Memory
  cartRam : Memory
  deriving DecidableEq, Repr

/-- The given banks at their linear offsets, from bank `b` on (R79). -/
def bankCells : Nat → List Memory → Memory
  | _, [] => []
  | b, m :: ms => m.map (fun c => (b * Config.ramBankSize + c.1, c.2)) ++ bankCells (b + 1) ms

/-- The four RAM banks (R46; 90_conflicts.md C1): those the loader fills, and `cartRamInit` in the slots it does not. -/
def loadedRam (banks : List Memory) (cartRamInit : Memory) : Memory :=
  bankCells 0 banks ++ cartRamInit.filter fun c => banks.length * Config.ramBankSize ≤ c.1

/-- The cartridge that construction makes of the loader's (R230). -/
def LoadedCart.toCart (c : LoadedCart) (init : InitRam) : Cart :=
  match c with
  | .none => .none
  | .mbc1 rom banks hasRam => .mbc1 (Mbc1.constructed rom (loadedRam banks init.cartRam) hasRam)

/-- `Construct(biosImage, cartridge, initRam)` (R230): the length of the image is the only thing it validates (R231). -/
def construct (biosImage : List Byte) (cartridge : LoadedCart) (init : InitRam) : Except ConstructionError State :=
  if biosImage.length ≠ Config.biosSize then .error (.biosSizeMismatch biosImage.length)
  else .ok
    { bios := Memory.ofBytes biosImage
      cart := cartridge.toCart init
      vram := init.vram
      wram := init.wram
      oam := init.oam
      hram := init.hram
      biosEnabled := true
      fault := none
      pending := []
      reads := [] }

end Sys2Proof.Machine
end

