-- ==== Sys2Proof/Safety.lean ====
section
/-! DEFINITION. What the claims call a legal state and a safe run: the register invariants of 10_state.md R32, every store
in canonical form and inside its size, and a block that has not halted (60_exceptions.md R204). -/

namespace Sys2Proof.Machine

/-- The three MBC1 register invariants of R32. -/
def Mbc1.regsLegal (c : Mbc1) : Bool :=
  c.romBank != 0 && (!c.ramEnable || c.hasRam) && (!c.ramMode || c.hasRam)

/-- A store in canonical form, every listed offset inside `size` bytes. -/
def Memory.fits (m : Memory) (size : Nat) : Bool := Memory.wf m && Memory.within m size

/-- The MBC1's two stores, 128 banks of 16 KiB and 4 banks of 8 KiB (R25, R26). -/
def Mbc1.storesFit (c : Mbc1) : Bool :=
  Memory.fits c.rom (128 * Config.romBankSize) && Memory.fits c.ram (4 * Config.ramBankSize)

/-- A cartridge that meets both. -/
def Cart.legal : Cart → Bool
  | .none => true
  | .mbc1 c => c.regsLegal && c.storesFit

/-- The state invariant: R32, and every store of R22 canonical and inside its size. -/
def State.legal (s : State) : Bool :=
  s.cart.legal && Memory.fits s.bios Config.biosSize && Memory.fits s.vram Config.vramSize &&
  Memory.fits s.wram Config.wramSize && Memory.fits s.oam Config.oamSize && Memory.fits s.hram Config.hramSize

/-- The block has not halted (R39). -/
def State.running (s : State) : Prop := s.fault = none

/-- What the loader and the environment owe construction (R6): stores in canonical form and inside their sizes, and at most
four RAM banks. -/
def InitRam.fits (i : InitRam) : Bool :=
  Memory.fits i.vram Config.vramSize && Memory.fits i.wram Config.wramSize && Memory.fits i.oam Config.oamSize &&
  Memory.fits i.hram Config.hramSize && Memory.fits i.cartRam (4 * Config.ramBankSize)

/-- See `InitRam.fits`. -/
def LoadedCart.fits : LoadedCart → Bool
  | .none => true
  | .mbc1 rom banks _ => Memory.fits rom (128 * Config.romBankSize) && decide (banks.length ≤ 4) &&
      banks.all fun m => Memory.fits m Config.ramBankSize

/-- `k` steps from `s` end in a next state, and none of them halts the block. -/
def safeFor (k : Nat) (s : State) : Prop :=
  ∃ t, Host.Core.run Sys2Proof.core k s = .next t ∧ t.running

end Sys2Proof.Machine
end

