-- ==== Sys2Proof/Certificates/Slice0/Obligations.lean ====
section
/-! DEFINITION. The statements for the provers. Addresses are compared as numbers; `Memory.read s.vram k` is the spec's
`vram[k]`, and byte `o` of bank `b` stands at `b * 0x4000 + o` of `rom` and `b * 0x2000 + o` of `ram` (R79). -/

open Sys2Proof Sys2Proof.Machine

/-! ## Decode and encode -/

/-- Words written out from 95_test_vectors.md P1 to P4 decode to the operation that their tables name (R91, R106). -/
def Obligations.DecodeOfWordsWrittenOut : Prop :=
  (Transaction.read 0x0050).decodeWord = 0b00000000001010000#17 ∧
  (Transaction.write 0xFF50 0x01).decodeWord = 0b11111111101010000#17 ∧
  decode ⟨true, .mbc1⟩ (.read 0x0050) = .rdBios 0x0050 ∧
  decode ⟨true, .mbc1⟩ (.write 0x0000 0x0A) = .wrBios 0x0000 0x0A ∧
  decode ⟨false, .mbc1⟩ (.write 0x0000 0x0A) = .wrRamen 0x0000 0x0A ∧
  decode ⟨false, .mbc1⟩ (.write 0x3FFF 0xFF) = .wrRomb 0x3FFF 0xFF ∧
  decode ⟨false, .mbc1⟩ (.write 0x4000 0x02) = .wrBankset 0x4000 0x02 ∧
  decode ⟨false, .mbc1⟩ (.write 0x7FFF 0x01) = .wrMode 0x7FFF 0x01 ∧
  decode ⟨false, .mbc1⟩ (.read 0x4123) = .rdRomx 0x4123 ∧
  decode ⟨false, .mbc1⟩ (.read 0xBFFF) = .rdXram 0xBFFF ∧
  decode ⟨true, .none⟩ (.read 0xE010) = .rdEcho 0xE010 ∧
  decode ⟨true, .none⟩ (.write 0xFE9F 0x11) = .wrOam 0xFE9F 0x11 ∧
  decode ⟨true, .none⟩ (.write 0xFEA0 0x22) = .wrUnmapped 0xFEA0 0x22 ∧
  decode ⟨true, .none⟩ (.read 0xFFFE) = .rdHram 0xFFFE ∧
  decode ⟨true, .none⟩ (.read 0xFFFF) = .rdUnmapped 0xFFFF ∧
  decode ⟨true, .none⟩ (.write 0xFF00 0x12) = .wrIoStub 0xFF00 0x12 ∧
  decode ⟨true, .none⟩ (.write 0xFF50 0x11) = .wrIoBoot 0x11 ∧
  decode ⟨false, .none⟩ (.read 0x0000) = .rdNocart 0x0000 ∧
  decodeTableWord 24 0x12000 = some (.wrRomb 0x2000 0x00)

/-- Every operation of the map of R100 decodes back from its own transaction, with every operand, in every mode. -/
def Obligations.DecodeOfEncodeIsIdentity : Prop :=
  ∀ (m : Mode) (i : Instr), i.wellFormed m = true → decode m (encode i) = i

/-- No transaction is illegal (R95, R103): in every mode each decodes to an operation of the map of R100, and nothing
of it is lost. -/
def Obligations.EveryTransactionDecodes : Prop :=
  ∀ (m : Mode) (t : Transaction), (decode m t).wellFormed m = true ∧ encode (decode m t) = t

/-- R107 (marked in the spec as its own derivation): for each mode exactly one row of the opcode table applies to a
decode word, and its mnemonic is the decode's. -/
def Obligations.ExactlyOneOpcodeRowApplies : Prop :=
  ∀ (m : Mode) (t : Transaction),
    (opcodeTable.filter fun r => r.applies m t.decodeWord).map OpcodeRow.mnemonic = [(decode m t).mnemonic]

/-- R91 (the spec's own decision D7): DW is {W, A}, and D is never part of the decode. -/
def Obligations.DecodeWordHoldsDirectionAndAddressOnly : Prop :=
  ∀ (a : Addr) (d d' : Byte) (m : Mode),
    (Transaction.read a).decodeWord.toNat = a.toNat ∧
    (Transaction.write a d).decodeWord.toNat = 0x10000 + a.toNat ∧
    (decode m (.write a d)).mnemonic = (decode m (.write a d')).mnemonic

/-- R104: B affects only 0x0000 to 0x00FF, and K only 0x0000 to 0x7FFF and 0xA000 to 0xBFFF. -/
def Obligations.ModeInputsChangeOnlyTheirRanges : Prop :=
  ∀ (m m' : Mode) (t : Transaction),
    (0x00FF < t.addr.toNat → m.cart = m'.cart → decode m t = decode m' t) ∧
    (0x8000 ≤ t.addr.toNat → (t.addr.toNat ≤ 0x9FFF ∨ 0xC000 ≤ t.addr.toNat) → decode m t = decode m' t)

/-- The model's serial form (notes/assumptions 6) carries every well-formed operation whole, whatever bytes follow it.
-/
def Obligations.SerialFormRoundTrips : Prop :=
  ∀ (m : Mode) (i : Instr) (rest : List Byte), i.wellFormed m = true →
    decodeBytes m (encodeBytes i ++ rest) = .ok (i, rest)

/-! ## The step -/

/-- A step of a running block takes the next transaction that the host issues, decodes it in the block's mode and runs
that operation (R70, R71), with the transaction taken off the waiting ones (the model's own `pending`). -/
def Obligations.StepRunsTheDecodedOperation : Prop :=
  ∀ (s : State) (t : Transaction) (rest : List Transaction),
    s.fault = none → s.pending = t :: rest →
      step s = exec (decode s.mode t) { s with pending := rest }

/-- With no transaction waiting a running block holds its state (R7, R215; the model's choice of a step there,
notes/assumptions 5); a faulted one has no step and says why (R39, R201, R207). -/
def Obligations.StepIdleHoldsAndHaltedStops : Prop :=
  (∀ s : State, s.fault = none → s.pending = [] → step s = .next s) ∧
  (∀ (s : State) (f : Fatal), s.fault = some f → step s = .fault (.halted f))

/-- A table word placed as the next transaction is the one that the next step runs, in the state it was placed in, and
from the mode of reset it is the table decoder's (notes/assumptions 7). -/
def Obligations.PlacedWordIsTheNextOperation : Prop :=
  ∀ (s : State) (nbits w : Nat) (t : Transaction),
    s.fault = none → tableTransaction nbits w = .ok t →
      step (s.withFetchWord nbits w) = exec (decode s.mode t) s ∧
      (s.mode = Config.resetMode → decodeTableWord nbits w = some (decode s.mode t))

/-! ## The primitives and the fatal checks -/

/-- R62: the re-offset subtracts from the relative address and keeps `raw`, is fatal with code 3 if `shift > rel`, and
keeps `rel <= raw`. -/
def Obligations.ReoffsetSubtractsOrIsFatal : Prop :=
  ∀ (a : Address) (shift : Addr),
    (a.rel.toNat < shift.toNat → reoffset a shift = .error (.reoffsetUnderflow a.raw a.rel shift)) ∧
    (shift.toNat ≤ a.rel.toNat → ∃ x, reoffset a shift = .ok x ∧ x.raw = a.raw ∧
      x.rel.toNat = a.rel.toNat - shift.toNat ∧ (a.rel.toNat ≤ a.raw.toNat → x.rel.toNat ≤ x.raw.toNat))

/-- R64: a byte array answers the byte at `rel` or stores one there and nowhere else, and an index at or past its
length is fatal with code 2; with the sizes of the arrays. -/
def Obligations.ByteArrayDeviceChecksItsBounds : Prop :=
  (∀ (dev : Device) (m : Memory) (a : Address) (v : Byte),
    (dev.size ≤ a.rel.toNat →
      arrRead dev m a = .error (.deviceOutOfRange dev a.raw a.rel dev.size) ∧
      arrWrite dev m a v = .error (.deviceOutOfRange dev a.raw a.rel dev.size)) ∧
    (a.rel.toNat < dev.size →
      arrRead dev m a = .ok (Memory.read m (dev.base + a.rel.toNat)) ∧
      ∃ m', arrWrite dev m a v = .ok m' ∧ Memory.read m' (dev.base + a.rel.toNat) = v ∧
        ∀ k, k ≠ dev.base + a.rel.toNat → Memory.read m' k = Memory.read m k)) ∧
  Device.vram.size = 0x2000 ∧ Device.wram.size = 0x2000 ∧ Device.oam.size = 0xA0 ∧ Device.hram.size = 0x7F ∧
  (∀ b, (Device.ramBank b).size = 0x2000) ∧ (∀ b, (Device.romBank b).size = 0x4000) ∧ Device.bios.size = 0x100

/-- R65, R66: the null device reads 0 and discards, and a write through the read-only wrapper changes nothing and is
fatal exactly where the inner read is. -/
def Obligations.NullAndReadOnlyDevicesDiscardWrites : Prop :=
  (∀ (a : Address) (s : State), nullRead a = .ok 0x00 ∧ nullWrite a s = .ok s) ∧
  (∀ (dev : Device) (m : Memory) (a : Address) (s : State),
    (a.rel.toNat < dev.size → roWrite dev m a s = .ok s) ∧
    (dev.size ≤ a.rel.toNat → roWrite dev m a s = .error (.deviceOutOfRange dev a.raw a.rel dev.size)))

/-- R69: the top-level decoder entered with an already-offset address is fatal with code 4, before any other check, and
an address that the host issues is never so. -/
def Obligations.TopLevelNeedsAFreshAddress : Prop :=
  (∀ (s : State) (a : Address) (d : Byte), a.rel ≠ a.raw →
    topRead s a = .error (.decoderOffsetAddress a.raw a.rel) ∧
    topWrite s a d = .error (.decoderOffsetAddress a.raw a.rel)) ∧
  (∀ a : Addr, checkFresh (newAddress a) = .ok (newAddress a))

/-- R153: the MBC1 accepts cartridge-relative addresses 0x0000 to 0x9FFF, any other is fatal with code 2 and size
0xA000, and the top level never passes one. -/
def Obligations.Mbc1WindowIsChecked : Prop :=
  (∀ (c : Mbc1) (a : Address) (d : Byte),
    (a.rel.toNat ≤ 0x9FFF → (∃ v, mbc1Read c a = .ok v) ∧ ∃ c', mbc1Write c a d = .ok c') ∧
    (0x9FFF < a.rel.toNat →
      mbc1Read c a = .error (.deviceOutOfRange .mbc1 a.raw a.rel 0xA000) ∧
      mbc1Write c a d = .error (.deviceOutOfRange .mbc1 a.raw a.rel 0xA000))) ∧
  (∀ a : Addr, (a.toNat ≤ 0x7FFF ∨ 0xA000 ≤ a.toNat ∧ a.toNat ≤ 0xBFFF) →
    ∃ x, cartAddress a = .ok x ∧ x.raw = a ∧ x.rel.toNat ≤ 0x9FFF)

/-- R201, R206: whatever operation meets a fatal check, at any address and in any state, the state after it is the
state before it with the fault record set and nothing else. -/
def Obligations.FatalEntrySavesTheRecordOnly : Prop :=
  ∀ (i : Instr) (s t : State), exec i s = .next t → t.fault ≠ s.fault →
    ∃ f, t = s.enterFatal f

/-- R62 seen from RD_VRAM, RD_WRAM, RD_OAM and RD_HRAM: run with an address below the region's base, which the decoder
never gives them, each takes the fatal of code 3 and returns no byte (R201). That an operation outside its range
follows its rule's pseudocode is the model's own deduction (notes/assumptions 4), and so is the fatal as a next state
(notes/assumptions 8). -/
def Obligations.MisroutedReadTakesTheUnderflowFatal : Prop :=
  ∀ (a : Addr) (s : State),
    (a.toNat < 0x8000 → exec (.rdVram a) s = .next { s with fault := some (.reoffsetUnderflow a a 0x8000) }) ∧
    (a.toNat < 0xC000 → exec (.rdWram a) s = .next { s with fault := some (.reoffsetUnderflow a a 0xC000) }) ∧
    (a.toNat < 0xFE00 → exec (.rdOam a) s = .next { s with fault := some (.reoffsetUnderflow a a 0xFE00) }) ∧
    (a.toNat < 0xFF80 → exec (.rdHram a) s = .next { s with fault := some (.reoffsetUnderflow a a 0xFF80) })

/-! ## Plain memory: each operation completes, with the rule's result -/

/-- R124, R125: while the bios is mapped, 0x0000 to 0x00FF reads the boot ROM and drops writes; once it is not, the
same addresses decode to RD_ROM0 or RD_NOCART, and WR_RAMEN or WR_NOCART, instead. -/
def Obligations.BiosReadsAndDropsWrites : Prop :=
  ∀ (s : State) (a : Addr) (d : Byte), a.toNat ≤ 0x00FF →
    (s.biosEnabled = true →
      (decode s.mode (.read a) = .rdBios a ∧
        exec (.rdBios a) s = .next { s with reads := s.reads ++ [Memory.read s.bios a.toNat] }) ∧
      (decode s.mode (.write a d) = .wrBios a d ∧ exec (.wrBios a d) s = .next s)) ∧
    (s.biosEnabled = false →
      decode s.mode (.read a) = (if s.cart.kind = .none then .rdNocart a else .rdRom0 a) ∧
      decode s.mode (.write a d) = (if s.cart.kind = .none then .wrNocart a d else .wrRamen a d))

/-- R126, R127. -/
def Obligations.VideoRamReadsAndWrites : Prop :=
  ∀ (s : State) (a : Addr) (d : Byte), 0x8000 ≤ a.toNat → a.toNat ≤ 0x9FFF →
    (decode s.mode (.read a) = .rdVram a ∧
      exec (.rdVram a) s = .next { s with reads := s.reads ++ [Memory.read s.vram (a.toNat - 0x8000)] }) ∧
    (decode s.mode (.write a d) = .wrVram a d ∧
      exec (.wrVram a d) s = .next { s with vram := Memory.write s.vram (a.toNat - 0x8000) d })

/-- R128, R129: working RAM, and up to 0xDDFF the same cell at `A + 0x2000`. -/
def Obligations.WorkingRamReadsAndWrites : Prop :=
  ∀ (s : State) (a : Addr) (d : Byte), 0xC000 ≤ a.toNat → a.toNat ≤ 0xDFFF →
    (decode s.mode (.read a) = .rdWram a ∧
      exec (.rdWram a) s = .next { s with reads := s.reads ++ [Memory.read s.wram (a.toNat - 0xC000)] }) ∧
    (decode s.mode (.write a d) = .wrWram a d ∧
      exec (.wrWram a d) s = .next { s with wram := Memory.write s.wram (a.toNat - 0xC000) d }) ∧
    (a.toNat ≤ 0xDDFF →
      transact (.read (a + 0x2000)) s = transact (.read a) s ∧
      transact (.write (a + 0x2000) d) s = transact (.write a d) s)

/-- R130, R131: the mirror reads and writes working RAM. -/
def Obligations.EchoReadsAndWritesWorkingRam : Prop :=
  ∀ (s : State) (a : Addr) (d : Byte), 0xE000 ≤ a.toNat → a.toNat ≤ 0xFDFF →
    (decode s.mode (.read a) = .rdEcho a ∧
      exec (.rdEcho a) s = .next { s with reads := s.reads ++ [Memory.read s.wram (a.toNat - 0xE000)] }) ∧
    (decode s.mode (.write a d) = .wrEcho a d ∧
      exec (.wrEcho a d) s = .next { s with wram := Memory.write s.wram (a.toNat - 0xE000) d })

/-- R132, R133. -/
def Obligations.SpriteTableReadsAndWrites : Prop :=
  ∀ (s : State) (a : Addr) (d : Byte), 0xFE00 ≤ a.toNat → a.toNat ≤ 0xFE9F →
    (decode s.mode (.read a) = .rdOam a ∧
      exec (.rdOam a) s = .next { s with reads := s.reads ++ [Memory.read s.oam (a.toNat - 0xFE00)] }) ∧
    (decode s.mode (.write a d) = .wrOam a d ∧
      exec (.wrOam a d) s = .next { s with oam := Memory.write s.oam (a.toNat - 0xFE00) d })

/-- R134, R135: the unmapped holes read 0x00 and discard writes. -/
def Obligations.UnmappedHolesReadZeroAndDiscard : Prop :=
  ∀ (s : State) (a : Addr) (d : Byte), (0xFEA0 ≤ a.toNat ∧ a.toNat ≤ 0xFEFF ∨ a.toNat = 0xFFFF) →
    (decode s.mode (.read a) = .rdUnmapped a ∧
      exec (.rdUnmapped a) s = .next { s with reads := s.reads ++ [0x00] }) ∧
    (decode s.mode (.write a d) = .wrUnmapped a d ∧ exec (.wrUnmapped a d) s = .next s)

/-- R136, R137. -/
def Obligations.HighRamReadsAndWrites : Prop :=
  ∀ (s : State) (a : Addr) (d : Byte), 0xFF80 ≤ a.toNat → a.toNat ≤ 0xFFFE →
    (decode s.mode (.read a) = .rdHram a ∧
      exec (.rdHram a) s = .next { s with reads := s.reads ++ [Memory.read s.hram (a.toNat - 0xFF80)] }) ∧
    (decode s.mode (.write a d) = .wrHram a d ∧
      exec (.wrHram a d) s = .next { s with hram := Memory.write s.hram (a.toNat - 0xFF80) d })

/-! ## The cartridge: each operation completes, with the rule's result -/

/-- R151, R152: with no cartridge the cartridge windows read 0x00 and discard writes. -/
def Obligations.NoCartridgeReadsZeroAndDiscards : Prop :=
  ∀ (s : State) (a : Addr) (d : Byte), s.cart = .none →
    ((if s.biosEnabled then 0x0100 else 0x0000) ≤ a.toNat ∧ a.toNat ≤ 0x7FFF ∨ 0xA000 ≤ a.toNat ∧ a.toNat ≤ 0xBFFF) →
    (decode s.mode (.read a) = .rdNocart a ∧
      exec (.rdNocart a) s = .next { s with reads := s.reads ++ [0x00] }) ∧
    (decode s.mode (.write a d) = .wrNocart a d ∧ exec (.wrNocart a d) s = .next s)

/-- R158: 0x0000 to 0x3FFF reads ROM bank 0, whatever the registers hold. -/
def Obligations.FixedRomBankReads : Prop :=
  ∀ (s : State) (c : Mbc1) (a : Addr), s.cart = .mbc1 c →
    (if s.biosEnabled then 0x0100 else 0x0000) ≤ a.toNat → a.toNat ≤ 0x3FFF →
      decode s.mode (.read a) = .rdRom0 a ∧
      exec (.rdRom0 a) s = .next { s with reads := s.reads ++ [Memory.read c.rom a.toNat] }

/-- R156, R159: 0x4000 to 0x7FFF reads the bank `(high_order << 5) | rom_bank`, `high_order` being 0 if `ram_mode` else
`bank_set`; with legal registers (R32) never bank 0, 32, 64 or 96. -/
def Obligations.SwitchableRomBankReads : Prop :=
  ∀ (s : State) (c : Mbc1) (a : Addr), s.cart = .mbc1 c → 0x4000 ≤ a.toNat → a.toNat ≤ 0x7FFF →
    decode s.mode (.read a) = .rdRomx a ∧
    exec (.rdRomx a) s = .next { s with reads := s.reads ++
      [Memory.read c.rom (((if c.ramMode then 0 else c.bankSet.toNat) * 32 + c.romBank.toNat) * 0x4000 +
        (a.toNat - 0x4000))] } ∧
    (c.regsLegal = true → ((if c.ramMode then 0 else c.bankSet.toNat) * 32 + c.romBank.toNat) % 32 ≠ 0)

/-- R157, R160: 0xA000 to 0xBFFF reads the effective RAM bank while RAM is enabled, else 0x00; with legal registers
(R32) always 0x00 if the cartridge has no RAM. -/
def Obligations.CartridgeRamReads : Prop :=
  ∀ (s : State) (c : Mbc1) (a : Addr), s.cart = .mbc1 c → 0xA000 ≤ a.toNat → a.toNat ≤ 0xBFFF →
    decode s.mode (.read a) = .rdXram a ∧
    exec (.rdXram a) s = .next { s with reads := s.reads ++
      [if c.ramEnable then
        Memory.read c.ram ((if c.ramMode then c.bankSet.toNat else 0) * 0x2000 + (a.toNat - 0xA000)) else 0x00] } ∧
    (c.regsLegal = true → c.hasRam = false →
      exec (.rdXram a) s = .next { s with reads := s.reads ++ [0x00] })

/-- R161. -/
def Obligations.RamEnableRegisterWrite : Prop :=
  ∀ (s : State) (c : Mbc1) (a : Addr) (d : Byte), s.cart = .mbc1 c →
    (if s.biosEnabled then 0x0100 else 0x0000) ≤ a.toNat → a.toNat ≤ 0x1FFF →
      decode s.mode (.write a d) = .wrRamen a d ∧
      exec (.wrRamen a d) s = .next
        { s with cart := .mbc1 { c with ramEnable := c.hasRam && decide (d.toNat % 16 = 0xA) } }

/-- R162. -/
def Obligations.RomBankRegisterWrite : Prop :=
  ∀ (s : State) (c : Mbc1) (a : Addr) (d : Byte), s.cart = .mbc1 c → 0x2000 ≤ a.toNat → a.toNat ≤ 0x3FFF →
    decode s.mode (.write a d) = .wrRomb a d ∧
    exec (.wrRomb a d) s = .next
      { s with cart := .mbc1 { c with romBank := BitVec.ofNat 5 (max (d.toNat % 32) 1) } }

/-- R163. -/
def Obligations.BankSetRegisterWrite : Prop :=
  ∀ (s : State) (c : Mbc1) (a : Addr) (d : Byte), s.cart = .mbc1 c → 0x4000 ≤ a.toNat → a.toNat ≤ 0x5FFF →
    decode s.mode (.write a d) = .wrBankset a d ∧
    exec (.wrBankset a d) s = .next
      { s with cart := .mbc1 { c with bankSet := BitVec.ofNat 2 (d.toNat % 4) } }

/-- R164. -/
def Obligations.ModeRegisterWrite : Prop :=
  ∀ (s : State) (c : Mbc1) (a : Addr) (d : Byte), s.cart = .mbc1 c → 0x6000 ≤ a.toNat → a.toNat ≤ 0x7FFF →
    decode s.mode (.write a d) = .wrMode a d ∧
    exec (.wrMode a d) s = .next
      { s with cart := .mbc1 { c with ramMode := c.hasRam && decide (d.toNat % 2 = 1) } }

/-- R157, R165: stored in the effective RAM bank if `has_ram AND ram_enable`, else discarded; with legal registers
(R32) the gate is `ram_enable`. -/
def Obligations.CartridgeRamWrites : Prop :=
  ∀ (s : State) (c : Mbc1) (a : Addr) (d : Byte), s.cart = .mbc1 c → 0xA000 ≤ a.toNat → a.toNat ≤ 0xBFFF →
    decode s.mode (.write a d) = .wrXram a d ∧
    exec (.wrXram a d) s = .next
      (if c.hasRam = true ∧ c.ramEnable = true then
        { s with cart := .mbc1 { c with
            ram := Memory.write c.ram ((if c.ramMode then c.bankSet.toNat else 0) * 0x2000 + (a.toNat - 0xA000)) d } }
      else s) ∧
    (c.regsLegal = true → ((c.hasRam = true ∧ c.ramEnable = true) ↔ c.ramEnable = true))

/-! ## The I/O block -/

/-- R191, R192: the stub offsets read 0xFF and ignore writes. -/
def Obligations.IoStubsReadOnesAndIgnoreWrites : Prop :=
  ∀ (s : State) (a : Addr) (d : Byte), 0xFF00 ≤ a.toNat → a.toNat ≤ 0xFF7F → a.toNat ≠ 0xFF50 →
    (decode s.mode (.read a) = .rdIoStub a ∧
      exec (.rdIoStub a) s = .next { s with reads := s.reads ++ [0xFF] }) ∧
    (decode s.mode (.write a d) = .wrIoStub a d ∧ exec (.wrIoStub a d) s = .next s)

/-- R193, R194: the latch reads 0x01 or 0x00, and a write with D[0] = 1 clears it; a write with D[0] = 0 changes
nothing. -/
def Obligations.BiosLatchReadsAndClears : Prop :=
  ∀ (s : State) (d : Byte),
    (decode s.mode (.read 0xFF50) = .rdIoBoot ∧
      exec .rdIoBoot s = .next { s with reads := s.reads ++ [if s.biosEnabled then 0x01 else 0x00] }) ∧
    (decode s.mode (.write 0xFF50 d) = .wrIoBoot d ∧
      exec (.wrIoBoot d) s = .next (if d.toNat % 2 = 1 then { s with biosEnabled := false } else s))

/-! ## Frames -/

/-- Whatever a read's address and the state, a read changes no register, no flag and no byte: it adds one read result,
or, at an address that the decoder never gives it, records a fatal. -/
def Obligations.FrameOfReads : Prop :=
  ∀ (i : Instr) (s t : State), (encode i).isWrite = false → exec i s = .next t →
    t.cart = s.cart ∧ t.biosEnabled = s.biosEnabled ∧ t.pending = s.pending ∧ (∀ c : Cell, t.cell c = s.cell c) ∧
    ((t.fault = s.fault ∧ ∃ v, t.reads = s.reads ++ [v]) ∨ (t.reads = s.reads ∧ ∃ f, t.fault = some f))

/-- The storing operations change no register, no flag and no byte but the one at the address that they compute. -/
def Obligations.FrameOfStores : Prop :=
  ∀ (i : Instr) (s t : State) (a : Addr) (d : Byte),
    i ∈ [.wrVram a d, .wrWram a d, .wrEcho a d, .wrOam a d, .wrHram a d, .wrXram a d] → exec i s = .next t →
    t.biosEnabled = s.biosEnabled ∧ t.pending = s.pending ∧ t.reads = s.reads ∧
    (t.fault = s.fault ∨ ∃ f, t = s.enterFatal f) ∧
    (t.cart = s.cart ∨ ∃ c c', s.cart = .mbc1 c ∧ t.cart = .mbc1 c' ∧ c' = { c with ram := c'.ram }) ∧
    (∀ k, opCell s i = some k → ∀ c : Cell, c.valid = true → c ≠ k → t.cell c = s.cell c) ∧
    (opCell s i = none → ∀ c : Cell, t.cell c = s.cell c)

/-- The writes that the spec discards change nothing at all, short of a fatal at an address that the decoder never
gives them. -/
def Obligations.FrameOfDiscardedWrites : Prop :=
  ∀ (i : Instr) (s t : State) (a : Addr) (d : Byte),
    i ∈ [.wrBios a d, .wrUnmapped a d, .wrNocart a d, .wrIoStub a d] → exec i s = .next t →
    t = s ∨ ∃ f, t = s.enterFatal f

/-- Each register write changes its own register and nothing else. -/
def Obligations.FrameOfRegisterWrites : Prop :=
  ∀ (s t : State) (c : Mbc1) (a : Addr) (d : Byte), s.cart = .mbc1 c →
    (exec (.wrRamen a d) s = .next t → ∃ v, t = { s with cart := .mbc1 { c with ramEnable := v } }) ∧
    (exec (.wrRomb a d) s = .next t → ∃ v, t = { s with cart := .mbc1 { c with romBank := v } }) ∧
    (exec (.wrBankset a d) s = .next t → ∃ v, t = { s with cart := .mbc1 { c with bankSet := v } }) ∧
    (exec (.wrMode a d) s = .next t → ∃ v, t = { s with cart := .mbc1 { c with ramMode := v } }) ∧
    (exec (.wrIoBoot d) s = .next t → ∃ v, t = { s with biosEnabled := v })

/-! ## The whole machine -/

/-- The model's reset (notes/assumptions 1, 2) is the construction of R230 from an all-zero bios image, an MBC1 with
RAM and stores that list nothing; it is legal, and it has not halted. -/
def Obligations.ResetIsALegalConstruction : Prop :=
  construct (List.replicate 256 0) (.mbc1 [] [] true) ⟨[], [], [], [], []⟩ = .ok State.reset ∧
  State.reset.legal = true ∧ State.reset.running

/-- R32, R168 (marked in the spec as its own derivations): every step keeps the register invariants, and the stores'
canonical form. -/
def Obligations.StepKeepsLegal : Prop :=
  ∀ s t : State, s.legal = true → step s = .next t → t.legal = true

/-- R72: in a running block both transactions complete at every address, with every byte and in every mode, a read
returns a byte, and the block is running after them; so every step of a running block completes. A step with no
transaction waiting is the model's idle step (R7; notes/assumptions 5). -/
def Obligations.NoTransactionFaults : Prop :=
  ∀ s : State, s.running →
    (∀ x : Transaction, ∃ t, transact x s = .next t ∧ t.running ∧ (x.isWrite = false → ∃ v, t = s.deliver v)) ∧
    ∃ t, step s = .next t ∧ t.running

/-- R204 (marked in the spec as its own derivation): start from any state that a construction produces, let the host
issue any transactions, and none of them is fatal. Steps past the last transaction are the model's idle step
(notes/assumptions 5). -/
def Obligations.NoRunFromConstructionFaults : Prop :=
  ∀ (image : List Byte) (cart : LoadedCart) (init : InitRam) (s : State) (ts : List Transaction) (k : Nat),
    construct image cart init = .ok s → safeFor k { s with pending := ts }

/-- Every run from a construction keeps the register invariants (R32, marked in the spec as its own derivation), for
every loader and every initial content (R6; the spec's own decisions D2, D3, D4). Steps past the last transaction are
the model's idle step (notes/assumptions 5). -/
def Obligations.EveryRunFromConstructionIsLegal : Prop :=
  ∀ (image : List Byte) (cart : LoadedCart) (init : InitRam) (s t : State) (ts : List Transaction) (k : Nat),
    cart.fits = true → init.fits = true → construct image cart init = .ok s →
    Host.Core.run core k { s with pending := ts } = .next t → State.legal t = true

/-- R106 (marked in the spec as its own derivation): the operations of R100 do what the routing table, the cartridge
selector and the MBC1's tables do, in every state, for every transaction. -/
def Obligations.OperationsAgreeWithTheRoutingTables : Prop :=
  ∀ (t : Transaction) (s : State), transact t s = routed t s

/-- R80: a read of a cell returns the byte in it; a write puts its byte into the cell it reaches, so every later read
that reaches that cell, at whatever address, returns it, and no other cell changes. -/
def Obligations.CellsAreConsistent : Prop :=
  (∀ (s : State) (a : Addr) (c : Cell), txCell s (.read a) = some c →
    c.valid = true ∧ transact (.read a) s = .next (s.deliver (s.cell c))) ∧
  (∀ (s t : State) (a : Addr) (d : Byte), transact (.write a d) s = .next t →
    (∀ c, txCell s (.write a d) = some c → c.valid = true ∧ t.cell c = d) ∧
    ∀ c : Cell, c.valid = true → txCell s (.write a d) ≠ some c → t.cell c = s.cell c)

/-- R76: a read changes no state (the model's list of read results grows by its byte), and reading the address again
returns the same byte. -/
def Obligations.ReadsHaveNoSideEffects : Prop :=
  ∀ (s : State) (a : Addr), ∃ v,
    transact (.read a) s = .next (s.deliver v) ∧ transact (.read a) (s.deliver v) = .next ((s.deliver v).deliver v)

/-- R77, its last sentence, marked in the spec as its own derivation: "writing the same byte twice leaves the state a
single write leaves". -/
def Obligations.RepeatedWriteIsIdempotent : Prop :=
  ∀ (s t : State) (a : Addr) (d : Byte), transact (.write a d) s = .next t → transact (.write a d) t = .next t

/-- R23, R24, R25, R27: no step changes the bios, the cartridge's kind, a ROM byte or `has_ram`. -/
def Obligations.ConfigurationNeverChanges : Prop :=
  ∀ s t : State, step s = .next t →
    t.bios = s.bios ∧ t.cart.kind = s.cart.kind ∧
    ∀ c, s.cart = .mbc1 c → ∃ c', t.cart = .mbc1 c' ∧ c'.rom = c.rom ∧ c'.hasRam = c.hasRam

/-- R26, R28 to R31, R37: each register, and cartridge RAM, changes only in its own operation. -/
def Obligations.EachRegisterHasOneWriter : Prop :=
  ∀ (s t : State) (x : Transaction) (rest : List Transaction), s.running → s.pending = x :: rest → step s = .next t →
    (t.biosEnabled ≠ s.biosEnabled → ∃ d, decode s.mode x = .wrIoBoot d) ∧
    ∀ c c', s.cart = .mbc1 c → t.cart = .mbc1 c' →
      (c'.ramEnable ≠ c.ramEnable → ∃ a d, decode s.mode x = .wrRamen a d) ∧
      (c'.romBank ≠ c.romBank → ∃ a d, decode s.mode x = .wrRomb a d) ∧
      (c'.bankSet ≠ c.bankSet → ∃ a d, decode s.mode x = .wrBankset a d) ∧
      (c'.ramMode ≠ c.ramMode → ∃ a d, decode s.mode x = .wrMode a d) ∧
      (c'.ram ≠ c.ram → ∃ a d, decode s.mode x = .wrXram a d)

/-- R195 (marked in the spec as its own derivation): once the latch is clear, it is clear after every number of
further steps. -/
def Obligations.BiosLatchIsMonotone : Prop :=
  ∀ (k : Nat) (s t : State), Host.Core.run core k s = .next t → s.biosEnabled = false → State.biosEnabled t = false

/-- R94, R121, R235 (R235 marked in the spec as its own derivation): while the bios is mapped a write below 0x0100
changes nothing; after a write of a byte with bit 0 set to 0xFF50 the same addresses read the cartridge's ROM bank 0.
-/
def Obligations.UnmappingTheBiosExposesTheCartridge : Prop :=
  ∀ (s t : State) (c : Mbc1) (a : Addr) (d : Byte), s.cart = .mbc1 c → a.toNat ≤ 0x00FF →
    (s.biosEnabled = true → transact (.write a d) s = .next s) ∧
    (d.toNat % 2 = 1 → transact (.write 0xFF50 d) s = .next t →
      transact (.read a) t = .next (t.deliver (Memory.read c.rom a.toNat)))

/-- R155, R234 (R234 marked in the spec as its own derivation): a write of the ROM bank register is seen by the very
next read of 0x4000 to 0x7FFF. -/
def Obligations.BankSwitchIsSeenByTheNextRead : Prop :=
  ∀ (s t : State) (c : Mbc1) (a b : Addr) (d : Byte), s.cart = .mbc1 c → 0x2000 ≤ a.toNat → a.toNat ≤ 0x3FFF →
    0x4000 ≤ b.toNat → b.toNat ≤ 0x7FFF → transact (.write a d) s = .next t →
      transact (.read b) t = .next (t.deliver (Memory.read c.rom
        (((if c.ramMode then 0 else c.bankSet.toNat) * 32 + max (d.toNat % 32) 1) * 0x4000 + (b.toNat - 0x4000))))

/-- R166 (marked in the spec as its own derivation; D12): the two offsets of the cartridge RAM window compose, so that
0xA000 + k reaches byte k. -/
def Obligations.CartridgeRamOffsetsCompose : Prop :=
  ∀ a : Addr, 0xA000 ≤ a.toNat → a.toNat ≤ 0xBFFF →
    ∃ x y, reoffset (newAddress a) 0x2000 = .ok x ∧ reoffset x 0x8000 = .ok y ∧
      y.raw = a ∧ y.rel.toNat = a.toNat - 0xA000 ∧ y.offset = 0xA000

/-- R167 (marked in the spec as its own derivation): with legal registers the switchable window never reaches banks 0,
32, 64 and 96, in mode 1 it reaches the banks 1 to 31 only, and every other bank is reached with some legal registers.
-/
def Obligations.ReachableRomBanks : Prop :=
  (∀ c : Mbc1, c.regsLegal = true → c.effRomBank.toNat % 32 ≠ 0 ∧ (c.ramMode = true → c.effRomBank.toNat < 32)) ∧
  (∀ (c : Mbc1) (b : BitVec 7), c.regsLegal = true → b.toNat % 32 ≠ 0 →
    ∃ r k, { c with romBank := r, bankSet := k, ramMode := false : Mbc1 }.regsLegal = true ∧
      { c with romBank := r, bankSet := k, ramMode := false : Mbc1 }.effRomBank = b)

/-- R169 (marked in the spec as its own derivation): a cartridge without RAM, with legal registers: RAM disabled, mode
0, the window reads 0x00 and discards. -/
def Obligations.CartridgeWithoutRam : Prop :=
  ∀ (s : State) (c : Mbc1) (a : Addr) (d : Byte), s.cart = .mbc1 c → c.regsLegal = true → c.hasRam = false →
    c.ramEnable = false ∧ c.ramMode = false ∧ c.effRamBank = 0 ∧
    c.effRomBank.toNat = c.bankSet.toNat * 32 + c.romBank.toNat ∧
    (0xA000 ≤ a.toNat → a.toNat ≤ 0xBFFF →
      transact (.read a) s = .next (s.deliver 0x00) ∧ transact (.write a d) s = .next s)

/-- R238 (marked in the spec as its own derivation): setting the mode with RAM fitted moves both windows in the same
step. -/
def Obligations.ModeSwitchMovesBothWindows : Prop :=
  ∀ (s : State) (c : Mbc1) (a : Addr) (d : Byte), s.cart = .mbc1 c → c.hasRam = true →
    0x6000 ≤ a.toNat → a.toNat ≤ 0x7FFF → d.toNat % 2 = 1 →
      ∃ c', transact (.write a d) s = .next { s with cart := .mbc1 c' } ∧
        c'.effRomBank.toNat = c.romBank.toNat ∧ c'.effRamBank = c.bankSet

/-- R237: a read below 0x8000 tells nothing of the registers but the effective ROM bank: two controllers with the same
ROM and the same effective bank read alike there. -/
def Obligations.RegistersCannotBeReadBack : Prop :=
  ∀ (s : State) (c c' : Mbc1) (a : Addr), a.toNat ≤ 0x7FFF → c.rom = c'.rom →
    (a.toNat ≤ 0x3FFF ∨ c.effRomBank = c'.effRomBank) → s.cart = .mbc1 c →
      ∃ v, transact (.read a) s = .next (s.deliver v) ∧
        transact (.read a) { s with cart := .mbc1 c' } = .next ({ s with cart := .mbc1 c' }.deliver v)

/-! ## Construction -/

/-- R203, R231 (as a result of construction, the spec's own decision D10): an image of another length than 256 fails
with the actual length, and makes no state. -/
def Obligations.ConstructionChecksTheBiosSize : Prop :=
  ∀ (image : List Byte) (cart : LoadedCart) (init : InitRam),
    (image.length ≠ 256 → construct image cart init = .error (.biosSizeMismatch image.length)) ∧
    (image.length = 256 → ∃ s, construct image cart init = .ok s)

/-- R46, R230 (the register values are the spec's own decision D2): the value of every field after construction, and
the bios image reads back. That a loader of fewer than four RAM banks fills the first ones is the model's own
deduction (notes/assumptions 15). -/
def Obligations.ConstructionValues : Prop :=
  ∀ (image : List Byte) (cart : LoadedCart) (init : InitRam) (s : State), construct image cart init = .ok s →
    (∀ (a : Addr) (h : a.toNat < image.length), a.toNat ≤ 0x00FF →
      transact (.read a) s = .next (s.deliver (image[a.toNat]'h))) ∧
    s.vram = init.vram ∧ s.wram = init.wram ∧ s.oam = init.oam ∧ s.hram = init.hram ∧
    s.biosEnabled = true ∧ s.fault = none ∧
    (cart = .none → s.cart = .none) ∧
    ∀ rom banks hasRam, cart = .mbc1 rom banks hasRam → ∃ c, s.cart = .mbc1 c ∧ c.rom = rom ∧ c.hasRam = hasRam ∧
      c.ramEnable = false ∧ c.romBank = 1 ∧ c.bankSet = 0 ∧ c.ramMode = false ∧
      ∀ (b : BitVec 2) (o : Nat), o < 0x2000 → (banks.all fun m => Memory.within m 0x2000) = true →
        Memory.read c.ram (b.toNat * 0x2000 + o) =
          if h : b.toNat < banks.length then Memory.read (banks[b.toNat]'h) o
          else Memory.read init.cartRam (b.toNat * 0x2000 + o)
end

