-- ==== Sys2Proof/Laws/Memory.lean ====
section
/-! SUPPORT. The laws of one store: read after write, and that every operation keeps the canonical form. -/

namespace Sys2Proof.Machine

/-! ## Reading -/

@[simp] theorem Memory.read_nil (k : Nat) : Memory.read [] k = Config.unlistedByte := rfl

theorem Memory.read_cons (c : Nat × Byte) (m : Memory) (k : Nat) :
    Memory.read (c :: m) k = if c.1 = k then c.2 else Memory.read m k := rfl

/-- A store that lists nothing at `k` reads the unlisted byte there. -/
theorem Memory.read_of_not_listed {m : Memory} {k : Nat} (h : ∀ c ∈ m, c.1 ≠ k) :
    Memory.read m k = Config.unlistedByte := by
  induction m with
  | nil => rfl
  | cons c m ih =>
    rw [Memory.read_cons, if_neg (h c (by simp))]
    exact ih fun c' hc' => h c' (by simp [hc'])

theorem Memory.read_remove_same (m : Memory) (k : Nat) :
    Memory.read (Memory.remove m k) k = Config.unlistedByte :=
  Memory.read_of_not_listed fun c hc => by simpa using (List.mem_filter.mp hc).2

theorem Memory.read_remove_other {m : Memory} {k k' : Nat} (h : k' ≠ k) :
    Memory.read (Memory.remove m k) k' = Memory.read m k' := by
  induction m with
  | nil => rfl
  | cons c m ih =>
    unfold Memory.remove at ih ⊢
    by_cases hc : c.1 = k
    · rw [List.filter_cons_of_neg (by simpa using hc), ih, Memory.read_cons, if_neg (by omega)]
    · rw [List.filter_cons_of_pos (by simpa using hc), Memory.read_cons, Memory.read_cons, ih]

/-- An inserted entry is the one that its offset reads, if the store listed none there. -/
theorem Memory.read_insert_same {m : Memory} {k : Nat} (v : Byte) (h : ∀ c ∈ m, c.1 ≠ k) :
    Memory.read (Memory.insert m k v) k = v := by
  induction m with
  | nil => simp [Memory.insert, Memory.read]
  | cons c m ih =>
    simp only [Memory.insert]
    split
    · simp [Memory.read]
    · rw [Memory.read_cons, if_neg (h c (by simp))]
      exact ih fun c' hc' => h c' (by simp [hc'])

theorem Memory.read_insert_other {m : Memory} {k k' : Nat} (v : Byte) (h : k' ≠ k) :
    Memory.read (Memory.insert m k v) k' = Memory.read m k' := by
  induction m with
  | nil => simp [Memory.insert, Memory.read, h.symm]
  | cons c m ih =>
    simp only [Memory.insert]
    split
    · rw [Memory.read_cons, if_neg (Ne.symm h)]
    · rw [Memory.read_cons, Memory.read_cons, ih]

theorem Memory.not_listed_remove (m : Memory) (k : Nat) : ∀ c ∈ Memory.remove m k, c.1 ≠ k :=
  fun c hc => by simpa using (List.mem_filter.mp hc).2

/-- A read after a write to the same offset gives the byte written. -/
@[simp] theorem Memory.read_write_same (m : Memory) (k : Nat) (v : Byte) :
    Memory.read (Memory.write m k v) k = v := by
  unfold Memory.write
  split
  · rw [Memory.read_remove_same]; exact Eq.symm ‹_›
  · exact Memory.read_insert_same v (Memory.not_listed_remove m k)

/-- A write leaves every other offset alone. -/
theorem Memory.read_write_other {m : Memory} {k k' : Nat} (v : Byte) (h : k' ≠ k) :
    Memory.read (Memory.write m k v) k' = Memory.read m k' := by
  unfold Memory.write
  split
  · exact Memory.read_remove_other h
  · rw [Memory.read_insert_other v h, Memory.read_remove_other h]

/-- What an offset reads after a write, in one equation. -/
theorem Memory.read_write (m : Memory) (k k' : Nat) (v : Byte) :
    Memory.read (Memory.write m k v) k' = if k' = k then v else Memory.read m k' := by
  split
  · subst k'; simp
  · exact Memory.read_write_other v ‹_›

/-- Removing what was just inserted gives back the store. -/
theorem Memory.remove_insert {m : Memory} {k : Nat} (v : Byte) (h : ∀ c ∈ m, c.1 ≠ k) :
    Memory.remove (Memory.insert m k v) k = m := by
  induction m with
  | nil => simp [Memory.insert, Memory.remove]
  | cons c m ih =>
    have hm : Memory.remove m k = m := List.filter_eq_self.mpr fun c' hc' => by simpa using h c' (by simp [hc'])
    simp only [Memory.insert]
    split
    · unfold Memory.remove at hm ⊢
      rw [List.filter_cons_of_neg (by simp), List.filter_cons_of_pos (by simpa using h c (by simp)), hm]
    · unfold Memory.remove at ih ⊢
      rw [List.filter_cons_of_pos (by simpa using h c (by simp)), ih fun c' hc' => h c' (by simp [hc'])]

/-- Removing twice is removing once. -/
theorem Memory.remove_remove (m : Memory) (k : Nat) : Memory.remove (Memory.remove m k) k = Memory.remove m k := by
  simp [Memory.remove, List.filter_filter]

/-- Writing the same byte twice leaves the store of the first write. -/
@[simp] theorem Memory.write_write_same (m : Memory) (k : Nat) (v : Byte) :
    Memory.write (Memory.write m k v) k v = Memory.write m k v := by
  unfold Memory.write
  split
  · exact Memory.remove_remove m k
  · rw [Memory.remove_insert v (Memory.not_listed_remove m k)]

/-! ## The canonical form -/

theorem Memory.wfFrom_cons {k : Nat} {c : Nat × Byte} {m : Memory} :
    Memory.wfFrom k (c :: m) = true ↔ k ≤ c.1 ∧ c.2 ≠ Config.unlistedByte ∧ Memory.wfFrom (c.1 + 1) m = true := by
  obtain ⟨k', v⟩ := c
  simp [Memory.wfFrom, and_assoc]

theorem Memory.wfFrom_mono {j k : Nat} {m : Memory} (hjk : j ≤ k) (h : Memory.wfFrom k m = true) :
    Memory.wfFrom j m = true := by
  cases m with
  | nil => rfl
  | cons c m =>
    rw [Memory.wfFrom_cons] at h ⊢
    exact ⟨by omega, h.2⟩

/-- In canonical form no listed offset is below the bound. -/
theorem Memory.wfFrom_le {k : Nat} {m : Memory} (h : Memory.wfFrom k m = true) : ∀ c ∈ m, k ≤ c.1 := by
  induction m generalizing k with
  | nil => simp
  | cons c m ih =>
    rw [Memory.wfFrom_cons] at h
    intro c' hc'
    rcases List.mem_cons.mp hc' with rfl | hc'
    · exact h.1
    · have := ih h.2.2 c' hc'; omega

/-- Dropping entries keeps the canonical form. -/
theorem Memory.wfFrom_filter {k : Nat} {m : Memory} (p : Nat × Byte → Bool) (h : Memory.wfFrom k m = true) :
    Memory.wfFrom k (m.filter p) = true := by
  induction m generalizing k with
  | nil => rfl
  | cons c m ih =>
    rw [Memory.wfFrom_cons] at h
    by_cases hp : p c
    · rw [List.filter_cons_of_pos hp, Memory.wfFrom_cons]
      exact ⟨h.1, h.2.1, ih h.2.2⟩
    · rw [List.filter_cons_of_neg hp]
      exact ih (Memory.wfFrom_mono (by omega) h.2.2)

/-- Inserting an entry that the store does not list keeps the canonical form. -/
theorem Memory.wfFrom_insert {j k : Nat} {m : Memory} {v : Byte} (hjk : j ≤ k) (hv : v ≠ Config.unlistedByte)
    (hk : ∀ c ∈ m, c.1 ≠ k) (h : Memory.wfFrom j m = true) : Memory.wfFrom j (Memory.insert m k v) = true := by
  induction m generalizing j with
  | nil => exact Memory.wfFrom_cons.mpr ⟨hjk, hv, rfl⟩
  | cons c m ih =>
    have hc := Memory.wfFrom_cons.mp h
    have hne := hk c (by simp)
    simp only [Memory.insert]
    split
    · exact Memory.wfFrom_cons.mpr ⟨hjk, hv, Memory.wfFrom_cons.mpr ⟨by simpa using ‹k < c.1›, hc.2⟩⟩
    · exact Memory.wfFrom_cons.mpr ⟨hc.1, hc.2.1, ih (by omega) (fun c' hc' => hk c' (by simp [hc'])) hc.2.2⟩

/-- A write keeps the canonical form. -/
theorem Memory.wf_write {m : Memory} (k : Nat) (v : Byte) (h : Memory.wf m = true) :
    Memory.wf (Memory.write m k v) = true := by
  have hr : Memory.wfFrom 0 (Memory.remove m k) = true := Memory.wfFrom_filter _ h
  unfold Memory.write
  split
  · exact hr
  · exact Memory.wfFrom_insert (Nat.zero_le k) ‹_› (Memory.not_listed_remove m k) hr

/-! ## Offsets inside a size -/

theorem Memory.within_iff {m : Memory} {size : Nat} : Memory.within m size = true ↔ ∀ c ∈ m, c.1 < size := by
  simp [Memory.within]

theorem Memory.mem_insert {m : Memory} {k : Nat} {v : Byte} {c : Nat × Byte} (h : c ∈ Memory.insert m k v) :
    c = (k, v) ∨ c ∈ m := by
  induction m with
  | nil => simpa [Memory.insert] using h
  | cons c' m ih =>
    simp only [Memory.insert] at h
    split at h
    · simpa using h
    · rcases List.mem_cons.mp h with h | h
      · simp [h]
      · rcases ih h with h | h <;> simp [h]

/-- A write inside the size keeps every offset inside it. -/
theorem Memory.within_write {m : Memory} {size k : Nat} (v : Byte) (hk : k < size) (h : Memory.within m size = true) :
    Memory.within (Memory.write m k v) size = true := by
  rw [Memory.within_iff] at h ⊢
  intro c hc
  unfold Memory.write at hc
  split at hc
  · exact h c (List.mem_filter.mp hc).1
  · rcases Memory.mem_insert hc with rfl | hc
    · exact hk
    · exact h c (List.mem_filter.mp hc).1

/-- A write inside the size keeps a store canonical and inside its size. -/
theorem Memory.fits_write {m : Memory} {size k : Nat} (v : Byte) (hk : k < size) (h : Memory.fits m size = true) :
    Memory.fits (Memory.write m k v) size = true := by
  simp only [Memory.fits, Bool.and_eq_true] at h ⊢
  exact ⟨Memory.wf_write k v h.1, Memory.within_write v hk h.2⟩

/-! ## A byte image as a store -/

theorem Memory.wfFrom_ofBytesFrom (k : Nat) (bs : List Byte) : Memory.wfFrom k (Memory.ofBytesFrom k bs) = true := by
  induction bs generalizing k with
  | nil => rfl
  | cons v vs ih =>
    simp only [Memory.ofBytesFrom]
    split
    · exact Memory.wfFrom_mono (by omega) (ih (k + 1))
    · exact Memory.wfFrom_cons.mpr ⟨Nat.le_refl k, ‹_›, ih (k + 1)⟩

theorem Memory.ofBytesFrom_lt (k : Nat) (bs : List Byte) : ∀ c ∈ Memory.ofBytesFrom k bs, c.1 < k + bs.length := by
  induction bs generalizing k with
  | nil => simp [Memory.ofBytesFrom]
  | cons v vs ih =>
    intro c hc
    simp only [Memory.ofBytesFrom] at hc
    simp only [List.length_cons]
    split at hc
    · have := ih (k + 1) c hc; omega
    · rcases List.mem_cons.mp hc with rfl | hc
      · simp
      · have := ih (k + 1) c hc; omega

theorem Memory.read_ofBytesFrom (k : Nat) (bs : List Byte) (i : Nat) (h : i < bs.length) :
    Memory.read (Memory.ofBytesFrom k bs) (k + i) = bs[i] := by
  induction bs generalizing k i with
  | nil => simp at h
  | cons v vs ih =>
    simp only [Memory.ofBytesFrom]
    cases i with
    | zero =>
      split
      · simp only [List.getElem_cons_zero]
        rw [Memory.read_of_not_listed]
        · exact Eq.symm ‹_›
        · intro c hc
          have := Memory.wfFrom_le (Memory.wfFrom_ofBytesFrom (k + 1) vs) c hc
          omega
      · simp [Memory.read_cons]
    | succ i =>
      have hi : i < vs.length := by simpa using h
      have := ih (k + 1) i hi
      rw [show k + 1 + i = k + (i + 1) by omega] at this
      split
      · simpa using this
      · rw [Memory.read_cons, if_neg (by simp)]
        simpa using this

/-- An image reads back byte for byte. -/
theorem Memory.read_ofBytes (bs : List Byte) (i : Nat) (h : i < bs.length) :
    Memory.read (Memory.ofBytes bs) i = bs[i] := by
  simpa [Memory.ofBytes] using Memory.read_ofBytesFrom 0 bs i h

/-- An image's store is canonical and inside the image's length. -/
theorem Memory.fits_ofBytes (bs : List Byte) : Memory.fits (Memory.ofBytes bs) bs.length = true := by
  simp only [Memory.fits, Bool.and_eq_true]
  refine ⟨Memory.wfFrom_ofBytesFrom 0 bs, Memory.within_iff.mpr fun c hc => ?_⟩
  simpa using Memory.ofBytesFrom_lt 0 bs c hc

end Sys2Proof.Machine
end

