-- ==== Sys2Proof/Laws/Construct.lean ====
section
/-! SUPPORT. The RAM store that construction makes of the loader's banks (R46, R79): its bytes, and its canonical form. -/

namespace Sys2Proof.Machine

/-! ## Stores put together -/

/-- A store followed by another at greater offsets is canonical if both are. -/
theorem Memory.wfFrom_append {k j : Nat} {m m' : Memory} (h : Memory.wfFrom k m = true) (hlt : ∀ c ∈ m, c.1 < j)
    (hkj : k ≤ j) (h' : Memory.wfFrom j m' = true) : Memory.wfFrom k (m ++ m') = true := by
  induction m generalizing k with
  | nil => exact Memory.wfFrom_mono hkj h'
  | cons c m ih =>
    rw [Memory.wfFrom_cons] at h
    rw [List.cons_append, Memory.wfFrom_cons]
    exact ⟨h.1, h.2.1, ih h.2.2 (fun c' hc' => hlt c' (by simp [hc'])) (hlt c (by simp))⟩

/-- Moving every offset up by `b` keeps the canonical form. -/
theorem Memory.wfFrom_map_add {k b : Nat} {m : Memory} (h : Memory.wfFrom k m = true) :
    Memory.wfFrom (b + k) (m.map fun c => (b + c.1, c.2)) = true := by
  induction m generalizing k with
  | nil => rfl
  | cons c m ih =>
    rw [Memory.wfFrom_cons] at h
    rw [List.map_cons, Memory.wfFrom_cons]
    exact ⟨Nat.add_le_add_left h.1 b, h.2.1, ih h.2.2⟩

/-- A canonical store is canonical from any bound that its offsets meet. -/
theorem Memory.wfFrom_of_le {k j : Nat} {m : Memory} (h : Memory.wfFrom k m = true) (hj : ∀ c ∈ m, j ≤ c.1) :
    Memory.wfFrom j m = true := by
  cases m with
  | nil => rfl
  | cons c m =>
    rw [Memory.wfFrom_cons] at h ⊢
    exact ⟨hj c (by simp), h.2⟩

/-- The first of two stores answers where it lists the offset. -/
theorem Memory.read_append_of_mem {m m' : Memory} {k : Nat} (h : ∃ c ∈ m, c.1 = k) :
    Memory.read (m ++ m') k = Memory.read m k := by
  induction m with
  | nil => simp at h
  | cons c m ih =>
    rw [List.cons_append, Memory.read_cons, Memory.read_cons]
    split
    · rfl
    · exact ih (by simpa [‹¬c.1 = k›] using h)

/-- The second answers where the first does not list it. -/
theorem Memory.read_append_of_not_mem {m m' : Memory} {k : Nat} (h : ∀ c ∈ m, c.1 ≠ k) :
    Memory.read (m ++ m') k = Memory.read m' k := by
  induction m with
  | nil => rfl
  | cons c m ih =>
    rw [List.cons_append, Memory.read_cons, if_neg (h c (by simp))]
    exact ih fun c' hc' => h c' (by simp [hc'])

theorem Memory.read_map_add (m : Memory) (b k : Nat) :
    Memory.read (m.map fun c => (b + c.1, c.2)) (b + k) = Memory.read m k := by
  induction m with
  | nil => rfl
  | cons c m ih => rw [List.map_cons, Memory.read_cons, Memory.read_cons, ih]; simp

/-- Entries dropped at other offsets do not change what an offset reads. -/
theorem Memory.read_filter {m : Memory} {p : Nat × Byte → Bool} {k : Nat} (h : ∀ c, c.1 = k → p c = true) :
    Memory.read (m.filter p) k = Memory.read m k := by
  induction m with
  | nil => rfl
  | cons c m ih =>
    by_cases hp : p c = true
    · rw [List.filter_cons_of_pos hp, Memory.read_cons, Memory.read_cons, ih]
    · rw [List.filter_cons_of_neg hp, Memory.read_cons, if_neg fun hk => hp (h c hk), ih]

/-! ## The loader's banks -/

/-- The offsets that the banks from `b` on take. -/
theorem bankCells_bounds {b : Nat} {ms : List Memory} (h : ∀ m ∈ ms, Memory.within m Config.ramBankSize = true) :
    ∀ c ∈ bankCells b ms, b * Config.ramBankSize ≤ c.1 ∧ c.1 < (b + ms.length) * Config.ramBankSize := by
  induction ms generalizing b with
  | nil => simp [bankCells]
  | cons m ms ih =>
    intro c hc
    have e1 : (b + (ms.length + 1)) * Config.ramBankSize =
      b * Config.ramBankSize + ms.length * Config.ramBankSize + Config.ramBankSize := by ring
    have e2 : (b + 1) * Config.ramBankSize = b * Config.ramBankSize + Config.ramBankSize := by ring
    have e3 : (b + 1 + ms.length) * Config.ramBankSize =
      b * Config.ramBankSize + ms.length * Config.ramBankSize + Config.ramBankSize := by ring
    rw [List.length_cons, e1]
    rcases List.mem_append.mp hc with hc | hc
    · obtain ⟨c', hc', rfl⟩ := List.mem_map.mp hc
      have := Memory.within_iff.mp (h m (by simp)) c' hc'
      exact ⟨Nat.le_add_right _ _, by simp only; omega⟩
    · have := ih (b := b + 1) (fun m' hm' => h m' (by simp [hm'])) c hc
      rw [e2, e3] at this
      omega

/-- Bank `b0 + b` reads the bytes of the `b`-th store given. -/
theorem bankCells_read {b0 b o : Nat} {ms : List Memory} (h : ∀ m ∈ ms, Memory.within m Config.ramBankSize = true)
    (ho : o < Config.ramBankSize) (hb : b < ms.length) :
    Memory.read (bankCells b0 ms) ((b0 + b) * Config.ramBankSize + o) = Memory.read ms[b] o := by
  induction ms generalizing b0 b with
  | nil => simp at hb
  | cons m ms ih =>
    have hm := Memory.within_iff.mp (h m (by simp))
    have hms : ∀ m' ∈ ms, Memory.within m' Config.ramBankSize = true := fun m' hm' => h m' (by simp [hm'])
    have e2 : (b0 + 1) * Config.ramBankSize = b0 * Config.ramBankSize + Config.ramBankSize := by ring
    rw [bankCells]
    cases b with
    | zero =>
      simp only [Nat.add_zero, List.getElem_cons_zero]
      rw [← Memory.read_map_add m (b0 * Config.ramBankSize) o]
      by_cases hl : ∃ c ∈ m.map (fun c => (b0 * Config.ramBankSize + c.1, c.2)), c.1 = b0 * Config.ramBankSize + o
      · exact Memory.read_append_of_mem hl
      · rw [Memory.read_append_of_not_mem fun c hc he => hl ⟨c, hc, he⟩,
          Memory.read_of_not_listed fun c hc he => hl ⟨c, hc, he⟩]
        refine Memory.read_of_not_listed fun c hc he => ?_
        have := (bankCells_bounds hms c hc).1
        omega
    | succ b =>
      have e3 : (b0 + (b + 1)) * Config.ramBankSize = (b0 + 1 + b) * Config.ramBankSize := by ring
      have e4 : (b0 + 1 + b) * Config.ramBankSize =
        b0 * Config.ramBankSize + Config.ramBankSize + b * Config.ramBankSize := by ring
      rw [Memory.read_append_of_not_mem, e3]
      · exact ih hms (by simpa using hb)
      · intro c hc he
        obtain ⟨c', hc', rfl⟩ := List.mem_map.mp hc
        have := hm c' hc'
        simp only at he
        rw [e3, e4] at he
        omega

/-- A byte of the RAM store after construction: the loader's where it fills the bank, else the initial content (R46). -/
theorem loadedRam_read {banks : List Memory} {init : Memory} {b o : Nat}
    (h : ∀ m ∈ banks, Memory.within m Config.ramBankSize = true) (ho : o < Config.ramBankSize) :
    Memory.read (loadedRam banks init) (b * Config.ramBankSize + o) =
      if h : b < banks.length then Memory.read (banks[b]'h) o
      else Memory.read init (b * Config.ramBankSize + o) := by
  have hb := bankCells_bounds (b := 0) h
  have hr := fun hl => bankCells_read (b0 := 0) (b := b) h ho hl
  simp only [Nat.zero_add] at hb hr
  unfold loadedRam
  split
  · rename_i hl
    rw [← hr hl]
    have h1 : (b + 1) * Config.ramBankSize ≤ banks.length * Config.ramBankSize := Nat.mul_le_mul_right _ hl
    have h2 : (b + 1) * Config.ramBankSize = b * Config.ramBankSize + Config.ramBankSize := by ring
    by_cases hm : ∃ c ∈ bankCells 0 banks, c.1 = b * Config.ramBankSize + o
    · exact Memory.read_append_of_mem hm
    · rw [Memory.read_append_of_not_mem fun c hc he => hm ⟨c, hc, he⟩,
        Memory.read_of_not_listed fun c hc he => hm ⟨c, hc, he⟩]
      refine Memory.read_of_not_listed fun c hc he => ?_
      have := of_decide_eq_true (List.mem_filter.mp hc).2
      omega
  · rename_i hl
    have h1 : banks.length * Config.ramBankSize ≤ b * Config.ramBankSize := Nat.mul_le_mul_right _ (by omega)
    rw [Memory.read_append_of_not_mem fun c hc he => by have := (hb c hc).2; omega]
    exact Memory.read_filter fun c hc => decide_eq_true (by omega)

/-- The banks from `b` on make a canonical store. -/
theorem bankCells_wf {b : Nat} {ms : List Memory} (h : ∀ m ∈ ms, Memory.fits m Config.ramBankSize = true) :
    Memory.wfFrom (b * Config.ramBankSize) (bankCells b ms) = true := by
  induction ms generalizing b with
  | nil => rfl
  | cons m ms ih =>
    have hm := h m (by simp)
    simp only [Memory.fits, Bool.and_eq_true] at hm
    have e2 : (b + 1) * Config.ramBankSize = b * Config.ramBankSize + Config.ramBankSize := by ring
    refine Memory.wfFrom_append (j := (b + 1) * Config.ramBankSize) ?_ ?_ (by omega)
      (ih fun m' hm' => h m' (by simp [hm']))
    · simpa using Memory.wfFrom_map_add (b := b * Config.ramBankSize) hm.1
    · intro c hc
      obtain ⟨c', hc', rfl⟩ := List.mem_map.mp hc
      have := Memory.within_iff.mp hm.2 c' hc'
      simp only; omega

/-- The RAM store after construction is canonical and inside four banks. -/
theorem loadedRam_fits {banks : List Memory} {init : Memory} (h : ∀ m ∈ banks, Memory.fits m Config.ramBankSize = true)
    (hl : banks.length ≤ 4) (hi : Memory.fits init (4 * Config.ramBankSize) = true) :
    Memory.fits (loadedRam banks init) (4 * Config.ramBankSize) = true := by
  have hw : ∀ m ∈ banks, Memory.within m Config.ramBankSize = true := fun m hm => by
    have := h m hm
    simp only [Memory.fits, Bool.and_eq_true] at this
    exact this.2
  have hb := bankCells_bounds (b := 0) hw
  have hwf := bankCells_wf (b := 0) h
  simp only [Nat.zero_add, Nat.zero_mul] at hb hwf
  have hle : banks.length * Config.ramBankSize ≤ 4 * Config.ramBankSize := Nat.mul_le_mul_right _ hl
  simp only [Memory.fits, Bool.and_eq_true] at hi ⊢
  constructor
  · refine Memory.wfFrom_append hwf (fun c hc => (hb c hc).2) (Nat.zero_le _)
      (Memory.wfFrom_of_le (Memory.wfFrom_filter _ hi.1) fun c hc => ?_)
    exact of_decide_eq_true (List.mem_filter.mp hc).2
  · rw [Memory.within_iff] at hi ⊢
    intro c hc
    rcases List.mem_append.mp hc with hc | hc
    · exact Nat.lt_of_lt_of_le (hb c hc).2 hle
    · exact hi.2 c (List.mem_filter.mp hc).1

end Sys2Proof.Machine
end

