-- ==== Sys2Proof/Laws/Decode.lean ====
section
/-! SUPPORT. The small lemmas of the decode: its comparisons as comparisons of numbers, and the decode word as a number. -/

namespace Sys2Proof

/-- A range of R100 as numbers. -/
theorem Addr.within_iff {a lo hi : Addr} : Addr.within a lo hi = true ↔ lo.toNat ≤ a.toNat ∧ a.toNat ≤ hi.toNat := by
  simp [Addr.within, BitVec.le_def]

/-- A range of R100 that gives way to the bios, as numbers. -/
theorem Mode.underBios_iff {m : Mode} {a hi : Addr} :
    m.underBios a hi = true ↔ (if m.biosEnabled then 0x0100 else 0x0000) ≤ a.toNat ∧ a.toNat ≤ hi.toNat := by
  unfold Mode.underBios
  split <;> simp [Addr.within_iff]

/-- R106 for a read, with its comparisons as numbers. -/
theorem decodeRead_eq (m : Mode) (a : Addr) :
    decodeRead m a =
      if a.toNat ≤ 0x00FF ∧ m.biosEnabled = true then .rdBios a
      else if a.toNat ≤ 0x7FFF then
        if m.cart = .none then .rdNocart a else if a.toNat ≤ 0x3FFF then .rdRom0 a else .rdRomx a
      else if a.toNat ≤ 0x9FFF then .rdVram a
      else if a.toNat ≤ 0xBFFF then if m.cart = .none then .rdNocart a else .rdXram a
      else if a.toNat ≤ 0xDFFF then .rdWram a
      else if a.toNat ≤ 0xFDFF then .rdEcho a
      else if a.toNat ≤ 0xFE9F then .rdOam a
      else if a.toNat ≤ 0xFEFF then .rdUnmapped a
      else if a.toNat ≤ 0xFF7F then if a.toNat = 0xFF50 then .rdIoBoot else .rdIoStub a
      else if a.toNat ≤ 0xFFFE then .rdHram a
      else .rdUnmapped a := by
  simp only [decodeRead, BitVec.le_def, ← BitVec.toNat_inj, Bool.and_eq_true, decide_eq_true_eq,
    BitVec.reduceToNat]

/-- R106 for a write, with its comparisons as numbers. -/
theorem decodeWrite_eq (m : Mode) (a : Addr) (d : Byte) :
    decodeWrite m a d =
      if a.toNat ≤ 0x00FF ∧ m.biosEnabled = true then .wrBios a d
      else if a.toNat ≤ 0x7FFF then
        if m.cart = .none then .wrNocart a d
        else if a.toNat ≤ 0x1FFF then .wrRamen a d
        else if a.toNat ≤ 0x3FFF then .wrRomb a d
        else if a.toNat ≤ 0x5FFF then .wrBankset a d
        else .wrMode a d
      else if a.toNat ≤ 0x9FFF then .wrVram a d
      else if a.toNat ≤ 0xBFFF then if m.cart = .none then .wrNocart a d else .wrXram a d
      else if a.toNat ≤ 0xDFFF then .wrWram a d
      else if a.toNat ≤ 0xFDFF then .wrEcho a d
      else if a.toNat ≤ 0xFE9F then .wrOam a d
      else if a.toNat ≤ 0xFEFF then .wrUnmapped a d
      else if a.toNat ≤ 0xFF7F then if a.toNat = 0xFF50 then .wrIoBoot d else .wrIoStub a d
      else if a.toNat ≤ 0xFFFE then .wrHram a d
      else .wrUnmapped a d := by
  simp only [decodeWrite, BitVec.le_def, ← BitVec.toNat_inj, Bool.and_eq_true, decide_eq_true_eq,
    BitVec.reduceToNat]

/-- The decode word of a read is its address (R91). -/
theorem decodeWord_read_toNat (a : Addr) : (Transaction.read a).decodeWord.toNat = a.toNat := by
  simp only [Transaction.decodeWord, Transaction.isWrite, Transaction.addr, BitVec.toNat_append, BitVec.toNat_ofBool,
    Bool.toNat_false]
  simp

/-- The decode word of a write has W, bit 16, set (R91). -/
theorem decodeWord_write_toNat (a : Addr) (d : Byte) :
    (Transaction.write a d).decodeWord.toNat = 0x10000 + a.toNat := by
  have h := a.isLt
  simp only [Transaction.decodeWord, Transaction.isWrite, Transaction.addr, BitVec.toNat_append, BitVec.toNat_ofBool,
    Bool.toNat_true]
  rw [Nat.shiftLeft_eq, Nat.mul_comm, ← Nat.two_pow_add_eq_or_of_lt h]

/-- An address is its two bytes, the high one first. -/
theorem bytes_of_addr (a : Addr) : ((a >>> 8).setWidth 8 : Byte) ++ (a.setWidth 8 : Byte) = a := by
  ext i hi
  simp only [BitVec.getElem_append]
  split
  · simp [BitVec.getLsbD_eq_getElem, hi]
  · simp only [BitVec.getElem_setWidth, BitVec.getLsbD_ushiftRight]
    rw [show 8 + (i - 8) = i by omega]
    simp [BitVec.getLsbD_eq_getElem, hi]

/-- The serial form of a transaction reads back, and leaves the bytes after it. -/
theorem decodeSerial_toSerial (t : Transaction) (rest : List Byte) :
    decodeSerial (t.toSerial ++ rest) = .ok (t, rest) := by
  cases t <;> simp [Transaction.toSerial, decodeSerial, bytes_of_addr]

/-- A mask of 17 bits that leaves out the low `k` bits compares the rest: the masks of the opcode table (R107). -/
theorem mask_eq_iff {x bits mask : BitVec 17} {k : Nat} (hm : mask = BitVec.allOnes 17 <<< k)
    (hb : bits.toNat % 2 ^ k = 0) : x &&& mask = bits ↔ x.toNat / 2 ^ k = bits.toNat / 2 ^ k := by
  subst hm
  constructor
  · intro h
    have := congrArg (fun y : BitVec 17 => (y >>> k).toNat) h
    simp only [BitVec.toNat_ushiftRight, Nat.shiftRight_eq_div_pow] at this
    rw [← this, ← Nat.shiftRight_eq_div_pow, ← Nat.shiftRight_eq_div_pow, ← BitVec.toNat_ushiftRight,
      ← BitVec.toNat_ushiftRight]
    congr 1
    ext i hi
    simp only [BitVec.getElem_ushiftRight, BitVec.getLsbD_and, BitVec.getLsbD_shiftLeft, BitVec.getLsbD_allOnes]
    by_cases hk : k + i < 17
    · simp [hk, hi]
    · simp [BitVec.getLsbD_of_ge x (k + i) (by omega)]
  · intro h
    ext i hi
    simp only [BitVec.getElem_and, BitVec.getElem_shiftLeft, BitVec.getElem_allOnes]
    by_cases hk : i < k
    · have : bits.toNat.testBit i = (bits.toNat % 2 ^ k).testBit i := by simp [Nat.testBit_mod_two_pow, hk]
      rw [hb] at this
      simp only [hk, decide_true, Bool.not_true, Bool.false_and, Bool.and_false]
      rw [← BitVec.getLsbD_eq_getElem, BitVec.getLsbD, this]
      simp
    · simp only [hk, decide_false, Bool.not_false, Bool.and_true]
      have hx := congrArg (fun n : Nat => n.testBit (i - k)) h
      simp only [Nat.testBit_div_two_pow, show i - k + k = i by omega] at hx
      simpa [← BitVec.getLsbD_eq_getElem, BitVec.getLsbD] using hx

/-! ## What each range decodes to (R100), with its ends as numbers -/

/-- The lower end of a range that gives way to the bios: the address is not under the bios. -/
theorem not_under_bios {b : Bool} {a : Addr} (h : (if b then 0x0100 else 0x0000) ≤ a.toNat) :
    ¬(a.toNat ≤ 0x00FF ∧ b = true) := by
  rintro ⟨h1, rfl⟩
  rw [if_pos rfl] at h
  omega

theorem decodeRead_bios {m : Mode} {a : Addr} (hb : m.biosEnabled = true) (h : a.toNat ≤ 0x00FF) :
    decodeRead m a = .rdBios a := by
  rw [decodeRead_eq, if_pos ⟨h, hb⟩]

theorem decodeRead_vram {m : Mode} {a : Addr} (h : 0x8000 ≤ a.toNat) (h' : a.toNat ≤ 0x9FFF) :
    decodeRead m a = .rdVram a := by
  simp (disch := omega) only [decodeRead_eq, if_neg, if_pos]

theorem decodeRead_wram {m : Mode} {a : Addr} (h : 0xC000 ≤ a.toNat) (h' : a.toNat ≤ 0xDFFF) :
    decodeRead m a = .rdWram a := by
  simp (disch := omega) only [decodeRead_eq, if_neg, if_pos]

theorem decodeRead_echo {m : Mode} {a : Addr} (h : 0xE000 ≤ a.toNat) (h' : a.toNat ≤ 0xFDFF) :
    decodeRead m a = .rdEcho a := by
  simp (disch := omega) only [decodeRead_eq, if_neg, if_pos]

theorem decodeRead_oam {m : Mode} {a : Addr} (h : 0xFE00 ≤ a.toNat) (h' : a.toNat ≤ 0xFE9F) :
    decodeRead m a = .rdOam a := by
  simp (disch := omega) only [decodeRead_eq, if_neg, if_pos]

theorem decodeRead_hole {m : Mode} {a : Addr} (h : 0xFEA0 ≤ a.toNat) (h' : a.toNat ≤ 0xFEFF) :
    decodeRead m a = .rdUnmapped a := by
  simp (disch := omega) only [decodeRead_eq, if_neg, if_pos]

theorem decodeRead_hram {m : Mode} {a : Addr} (h : 0xFF80 ≤ a.toNat) (h' : a.toNat ≤ 0xFFFE) :
    decodeRead m a = .rdHram a := by
  simp (disch := omega) only [decodeRead_eq, if_neg, if_pos]

theorem decodeRead_top {m : Mode} {a : Addr} (h : a.toNat = 0xFFFF) :
    decodeRead m a = .rdUnmapped a := by
  simp (disch := omega) only [decodeRead_eq, if_neg]

theorem decodeRead_stub {m : Mode} {a : Addr} (h : 0xFF00 ≤ a.toNat) (h' : a.toNat ≤ 0xFF7F)
    (hne : a.toNat ≠ 0xFF50) :
    decodeRead m a = .rdIoStub a := by
  simp (disch := omega) only [decodeRead_eq, hne, if_neg, if_pos, if_false]

theorem decodeRead_boot {m : Mode} {a : Addr} (h : a.toNat = 0xFF50) :
    decodeRead m a = .rdIoBoot := by
  simp (disch := omega) only [decodeRead_eq, if_neg, if_pos]

theorem decodeRead_nocart_low {m : Mode} {a : Addr} (hk : m.cart = .none)
    (hb : ¬(a.toNat ≤ 0x00FF ∧ m.biosEnabled = true)) (h : a.toNat ≤ 0x7FFF) :
    decodeRead m a = .rdNocart a := by
  simp (disch := omega) only [decodeRead_eq, hk, hb, if_neg, if_pos, if_true, if_false]

theorem decodeRead_nocart_high {m : Mode} {a : Addr} (hk : m.cart = .none) (h : 0xA000 ≤ a.toNat)
    (h' : a.toNat ≤ 0xBFFF) :
    decodeRead m a = .rdNocart a := by
  simp (disch := omega) only [decodeRead_eq, hk, if_neg, if_pos, if_true]

theorem decodeRead_xram {m : Mode} {a : Addr} (hk : m.cart = .mbc1) (h : 0xA000 ≤ a.toNat) (h' : a.toNat ≤ 0xBFFF) :
    decodeRead m a = .rdXram a := by
  simp (disch := omega) only [decodeRead_eq, hk, if_neg, if_pos, reduceCtorEq, if_false]

theorem decodeRead_rom0 {m : Mode} {a : Addr} (hk : m.cart = .mbc1)
    (hb : ¬(a.toNat ≤ 0x00FF ∧ m.biosEnabled = true)) (h : a.toNat ≤ 0x3FFF) :
    decodeRead m a = .rdRom0 a := by
  simp (disch := omega) only [decodeRead_eq, hk, hb, if_neg, if_pos, reduceCtorEq, if_false]

theorem decodeRead_romx {m : Mode} {a : Addr} (hk : m.cart = .mbc1) (h : 0x4000 ≤ a.toNat) (h' : a.toNat ≤ 0x7FFF) :
    decodeRead m a = .rdRomx a := by
  simp (disch := omega) only [decodeRead_eq, hk, if_neg, if_pos, reduceCtorEq, if_false]

theorem decodeWrite_bios {m : Mode} {a : Addr} {d : Byte} (hb : m.biosEnabled = true) (h : a.toNat ≤ 0x00FF) :
    decodeWrite m a d = .wrBios a d := by
  rw [decodeWrite_eq, if_pos ⟨h, hb⟩]

theorem decodeWrite_vram {m : Mode} {a : Addr} {d : Byte} (h : 0x8000 ≤ a.toNat) (h' : a.toNat ≤ 0x9FFF) :
    decodeWrite m a d = .wrVram a d := by
  simp (disch := omega) only [decodeWrite_eq, if_neg, if_pos]

theorem decodeWrite_wram {m : Mode} {a : Addr} {d : Byte} (h : 0xC000 ≤ a.toNat) (h' : a.toNat ≤ 0xDFFF) :
    decodeWrite m a d = .wrWram a d := by
  simp (disch := omega) only [decodeWrite_eq, if_neg, if_pos]

theorem decodeWrite_echo {m : Mode} {a : Addr} {d : Byte} (h : 0xE000 ≤ a.toNat) (h' : a.toNat ≤ 0xFDFF) :
    decodeWrite m a d = .wrEcho a d := by
  simp (disch := omega) only [decodeWrite_eq, if_neg, if_pos]

theorem decodeWrite_oam {m : Mode} {a : Addr} {d : Byte} (h : 0xFE00 ≤ a.toNat) (h' : a.toNat ≤ 0xFE9F) :
    decodeWrite m a d = .wrOam a d := by
  simp (disch := omega) only [decodeWrite_eq, if_neg, if_pos]

theorem decodeWrite_hole {m : Mode} {a : Addr} {d : Byte} (h : 0xFEA0 ≤ a.toNat) (h' : a.toNat ≤ 0xFEFF) :
    decodeWrite m a d = .wrUnmapped a d := by
  simp (disch := omega) only [decodeWrite_eq, if_neg, if_pos]

theorem decodeWrite_hram {m : Mode} {a : Addr} {d : Byte} (h : 0xFF80 ≤ a.toNat) (h' : a.toNat ≤ 0xFFFE) :
    decodeWrite m a d = .wrHram a d := by
  simp (disch := omega) only [decodeWrite_eq, if_neg, if_pos]

theorem decodeWrite_top {m : Mode} {a : Addr} {d : Byte} (h : a.toNat = 0xFFFF) :
    decodeWrite m a d = .wrUnmapped a d := by
  simp (disch := omega) only [decodeWrite_eq, if_neg]

theorem decodeWrite_stub {m : Mode} {a : Addr} {d : Byte} (h : 0xFF00 ≤ a.toNat) (h' : a.toNat ≤ 0xFF7F)
    (hne : a.toNat ≠ 0xFF50) :
    decodeWrite m a d = .wrIoStub a d := by
  simp (disch := omega) only [decodeWrite_eq, hne, if_neg, if_pos, if_false]

theorem decodeWrite_boot {m : Mode} {a : Addr} {d : Byte} (h : a.toNat = 0xFF50) :
    decodeWrite m a d = .wrIoBoot d := by
  simp (disch := omega) only [decodeWrite_eq, if_neg, if_pos]

theorem decodeWrite_nocart_low {m : Mode} {a : Addr} {d : Byte} (hk : m.cart = .none)
    (hb : ¬(a.toNat ≤ 0x00FF ∧ m.biosEnabled = true)) (h : a.toNat ≤ 0x7FFF) :
    decodeWrite m a d = .wrNocart a d := by
  simp (disch := omega) only [decodeWrite_eq, hk, hb, if_neg, if_pos, if_true, if_false]

theorem decodeWrite_nocart_high {m : Mode} {a : Addr} {d : Byte} (hk : m.cart = .none) (h : 0xA000 ≤ a.toNat)
    (h' : a.toNat ≤ 0xBFFF) :
    decodeWrite m a d = .wrNocart a d := by
  simp (disch := omega) only [decodeWrite_eq, hk, if_neg, if_pos, if_true]

theorem decodeWrite_xram {m : Mode} {a : Addr} {d : Byte} (hk : m.cart = .mbc1) (h : 0xA000 ≤ a.toNat)
    (h' : a.toNat ≤ 0xBFFF) :
    decodeWrite m a d = .wrXram a d := by
  simp (disch := omega) only [decodeWrite_eq, hk, if_neg, if_pos, reduceCtorEq, if_false]

theorem decodeWrite_ramen {m : Mode} {a : Addr} {d : Byte} (hk : m.cart = .mbc1)
    (hb : ¬(a.toNat ≤ 0x00FF ∧ m.biosEnabled = true)) (h : a.toNat ≤ 0x1FFF) :
    decodeWrite m a d = .wrRamen a d := by
  simp (disch := omega) only [decodeWrite_eq, hk, hb, if_neg, if_pos, reduceCtorEq, if_false]

theorem decodeWrite_romb {m : Mode} {a : Addr} {d : Byte} (hk : m.cart = .mbc1) (h : 0x2000 ≤ a.toNat)
    (h' : a.toNat ≤ 0x3FFF) :
    decodeWrite m a d = .wrRomb a d := by
  simp (disch := omega) only [decodeWrite_eq, hk, if_neg, if_pos, reduceCtorEq, if_false]

theorem decodeWrite_bankset {m : Mode} {a : Addr} {d : Byte} (hk : m.cart = .mbc1) (h : 0x4000 ≤ a.toNat)
    (h' : a.toNat ≤ 0x5FFF) :
    decodeWrite m a d = .wrBankset a d := by
  simp (disch := omega) only [decodeWrite_eq, hk, if_neg, if_pos, reduceCtorEq, if_false]

theorem decodeWrite_mode {m : Mode} {a : Addr} {d : Byte} (hk : m.cart = .mbc1) (h : 0x6000 ≤ a.toNat)
    (h' : a.toNat ≤ 0x7FFF) :
    decodeWrite m a d = .wrMode a d := by
  simp (disch := omega) only [decodeWrite_eq, hk, if_neg, if_pos, reduceCtorEq, if_false]

/-! ## Case analysis: what a read, and what a write, can decode to (R95, R100)

A claim about every transaction is a claim about each row of the operation map, with the row's range. -/

/-- The lower end of a range that gives way to the bios, from the test that failed. -/
theorem under_bios_of_not {b : Bool} {a : Addr} (h : ¬(a.toNat ≤ 0x00FF ∧ b = true)) :
    (if b then 0x0100 else 0x0000) ≤ a.toNat := by
  cases b
  · simp
  · simp only [and_true, if_true] at h ⊢; omega

theorem CartKind.eq_mbc1_of_ne_none {k : CartKind} (h : ¬k = .none) : k = .mbc1 := by
  cases k
  · exact absurd rfl h
  · rfl

/-- The rows of R100 with W = 0. -/
theorem decodeRead_elim {P : Instr → Prop} (m : Mode) (a : Addr)
    (bios : m.biosEnabled = true → a.toNat ≤ 0x00FF → P (.rdBios a))
    (nocart : m.cart = .none → ((if m.biosEnabled then 0x0100 else 0x0000) ≤ a.toNat ∧ a.toNat ≤ 0x7FFF ∨
      0xA000 ≤ a.toNat ∧ a.toNat ≤ 0xBFFF) → P (.rdNocart a))
    (rom0 : m.cart = .mbc1 → (if m.biosEnabled then 0x0100 else 0x0000) ≤ a.toNat → a.toNat ≤ 0x3FFF → P (.rdRom0 a))
    (romx : m.cart = .mbc1 → 0x4000 ≤ a.toNat → a.toNat ≤ 0x7FFF → P (.rdRomx a))
    (vram : 0x8000 ≤ a.toNat → a.toNat ≤ 0x9FFF → P (.rdVram a))
    (xram : m.cart = .mbc1 → 0xA000 ≤ a.toNat → a.toNat ≤ 0xBFFF → P (.rdXram a))
    (wram : 0xC000 ≤ a.toNat → a.toNat ≤ 0xDFFF → P (.rdWram a))
    (echo : 0xE000 ≤ a.toNat → a.toNat ≤ 0xFDFF → P (.rdEcho a))
    (oam : 0xFE00 ≤ a.toNat → a.toNat ≤ 0xFE9F → P (.rdOam a))
    (unmapped : (0xFEA0 ≤ a.toNat ∧ a.toNat ≤ 0xFEFF ∨ a.toNat = 0xFFFF) → P (.rdUnmapped a))
    (stub : 0xFF00 ≤ a.toNat → a.toNat ≤ 0xFF7F → a.toNat ≠ 0xFF50 → P (.rdIoStub a))
    (boot : a = 0xFF50 → P .rdIoBoot)
    (hram : 0xFF80 ≤ a.toNat → a.toNat ≤ 0xFFFE → P (.rdHram a)) : P (decodeRead m a) := by
  have hlt := a.isLt
  rw [decodeRead_eq]
  by_cases h1 : a.toNat ≤ 0x00FF ∧ m.biosEnabled = true
  · rw [if_pos h1]; exact bios h1.2 h1.1
  rw [if_neg h1]
  have hb := under_bios_of_not h1
  by_cases h2 : a.toNat ≤ 0x7FFF
  · rw [if_pos h2]
    by_cases hk : m.cart = .none
    · rw [if_pos hk]; exact nocart hk (.inl ⟨hb, h2⟩)
    rw [if_neg hk]
    have hk' := CartKind.eq_mbc1_of_ne_none hk
    by_cases h3 : a.toNat ≤ 0x3FFF
    · rw [if_pos h3]; exact rom0 hk' hb h3
    · rw [if_neg h3]; exact romx hk' (by omega) h2
  rw [if_neg h2]
  by_cases h3 : a.toNat ≤ 0x9FFF
  · rw [if_pos h3]; exact vram (by omega) h3
  rw [if_neg h3]
  by_cases h4 : a.toNat ≤ 0xBFFF
  · rw [if_pos h4]
    by_cases hk : m.cart = .none
    · rw [if_pos hk]; exact nocart hk (.inr ⟨by omega, h4⟩)
    · rw [if_neg hk]; exact xram (CartKind.eq_mbc1_of_ne_none hk) (by omega) h4
  rw [if_neg h4]
  by_cases h5 : a.toNat ≤ 0xDFFF
  · rw [if_pos h5]; exact wram (by omega) h5
  rw [if_neg h5]
  by_cases h6 : a.toNat ≤ 0xFDFF
  · rw [if_pos h6]; exact echo (by omega) h6
  rw [if_neg h6]
  by_cases h7 : a.toNat ≤ 0xFE9F
  · rw [if_pos h7]; exact oam (by omega) h7
  rw [if_neg h7]
  by_cases h8 : a.toNat ≤ 0xFEFF
  · rw [if_pos h8]; exact unmapped (.inl ⟨by omega, h8⟩)
  rw [if_neg h8]
  by_cases h9 : a.toNat ≤ 0xFF7F
  · rw [if_pos h9]
    by_cases h10 : a.toNat = 0xFF50
    · rw [if_pos h10]; exact boot (BitVec.eq_of_toNat_eq h10)
    · rw [if_neg h10]; exact stub (by omega) h9 h10
  rw [if_neg h9]
  by_cases h11 : a.toNat ≤ 0xFFFE
  · rw [if_pos h11]; exact hram (by omega) h11
  · rw [if_neg h11]; exact unmapped (.inr (by omega))

/-- The rows of R100 with W = 1. -/
theorem decodeWrite_elim {P : Instr → Prop} (m : Mode) (a : Addr) (d : Byte)
    (bios : m.biosEnabled = true → a.toNat ≤ 0x00FF → P (.wrBios a d))
    (nocart : m.cart = .none → ((if m.biosEnabled then 0x0100 else 0x0000) ≤ a.toNat ∧ a.toNat ≤ 0x7FFF ∨
      0xA000 ≤ a.toNat ∧ a.toNat ≤ 0xBFFF) → P (.wrNocart a d))
    (ramen : m.cart = .mbc1 → (if m.biosEnabled then 0x0100 else 0x0000) ≤ a.toNat → a.toNat ≤ 0x1FFF →
      P (.wrRamen a d))
    (romb : m.cart = .mbc1 → 0x2000 ≤ a.toNat → a.toNat ≤ 0x3FFF → P (.wrRomb a d))
    (bankset : m.cart = .mbc1 → 0x4000 ≤ a.toNat → a.toNat ≤ 0x5FFF → P (.wrBankset a d))
    (mode : m.cart = .mbc1 → 0x6000 ≤ a.toNat → a.toNat ≤ 0x7FFF → P (.wrMode a d))
    (vram : 0x8000 ≤ a.toNat → a.toNat ≤ 0x9FFF → P (.wrVram a d))
    (xram : m.cart = .mbc1 → 0xA000 ≤ a.toNat → a.toNat ≤ 0xBFFF → P (.wrXram a d))
    (wram : 0xC000 ≤ a.toNat → a.toNat ≤ 0xDFFF → P (.wrWram a d))
    (echo : 0xE000 ≤ a.toNat → a.toNat ≤ 0xFDFF → P (.wrEcho a d))
    (oam : 0xFE00 ≤ a.toNat → a.toNat ≤ 0xFE9F → P (.wrOam a d))
    (unmapped : (0xFEA0 ≤ a.toNat ∧ a.toNat ≤ 0xFEFF ∨ a.toNat = 0xFFFF) → P (.wrUnmapped a d))
    (stub : 0xFF00 ≤ a.toNat → a.toNat ≤ 0xFF7F → a.toNat ≠ 0xFF50 → P (.wrIoStub a d))
    (boot : a = 0xFF50 → P (.wrIoBoot d))
    (hram : 0xFF80 ≤ a.toNat → a.toNat ≤ 0xFFFE → P (.wrHram a d)) : P (decodeWrite m a d) := by
  have hlt := a.isLt
  rw [decodeWrite_eq]
  by_cases h1 : a.toNat ≤ 0x00FF ∧ m.biosEnabled = true
  · rw [if_pos h1]; exact bios h1.2 h1.1
  rw [if_neg h1]
  have hb := under_bios_of_not h1
  by_cases h2 : a.toNat ≤ 0x7FFF
  · rw [if_pos h2]
    by_cases hk : m.cart = .none
    · rw [if_pos hk]; exact nocart hk (.inl ⟨hb, h2⟩)
    rw [if_neg hk]
    have hk' := CartKind.eq_mbc1_of_ne_none hk
    by_cases h3 : a.toNat ≤ 0x1FFF
    · rw [if_pos h3]; exact ramen hk' hb h3
    rw [if_neg h3]
    by_cases h4 : a.toNat ≤ 0x3FFF
    · rw [if_pos h4]; exact romb hk' (by omega) h4
    rw [if_neg h4]
    by_cases h5 : a.toNat ≤ 0x5FFF
    · rw [if_pos h5]; exact bankset hk' (by omega) h5
    · rw [if_neg h5]; exact mode hk' (by omega) h2
  rw [if_neg h2]
  by_cases h3 : a.toNat ≤ 0x9FFF
  · rw [if_pos h3]; exact vram (by omega) h3
  rw [if_neg h3]
  by_cases h4 : a.toNat ≤ 0xBFFF
  · rw [if_pos h4]
    by_cases hk : m.cart = .none
    · rw [if_pos hk]; exact nocart hk (.inr ⟨by omega, h4⟩)
    · rw [if_neg hk]; exact xram (CartKind.eq_mbc1_of_ne_none hk) (by omega) h4
  rw [if_neg h4]
  by_cases h5 : a.toNat ≤ 0xDFFF
  · rw [if_pos h5]; exact wram (by omega) h5
  rw [if_neg h5]
  by_cases h6 : a.toNat ≤ 0xFDFF
  · rw [if_pos h6]; exact echo (by omega) h6
  rw [if_neg h6]
  by_cases h7 : a.toNat ≤ 0xFE9F
  · rw [if_pos h7]; exact oam (by omega) h7
  rw [if_neg h7]
  by_cases h8 : a.toNat ≤ 0xFEFF
  · rw [if_pos h8]; exact unmapped (.inl ⟨by omega, h8⟩)
  rw [if_neg h8]
  by_cases h9 : a.toNat ≤ 0xFF7F
  · rw [if_pos h9]
    by_cases h10 : a.toNat = 0xFF50
    · rw [if_pos h10]; exact boot (BitVec.eq_of_toNat_eq h10)
    · rw [if_neg h10]; exact stub (by omega) h9 h10
  rw [if_neg h9]
  by_cases h11 : a.toNat ≤ 0xFFFE
  · rw [if_pos h11]; exact hram (by omega) h11
  · rw [if_neg h11]; exact unmapped (.inr (by omega))

end Sys2Proof
end

