-- ==== Sys2Proof/Laws/State.lean ====
section
/-! SUPPORT. One lemma for each field of State under each update that the meanings make, so that no proof unfolds one. -/

namespace Sys2Proof.Machine

/-! ## `deliver`: the read results alone change -/

@[simp] theorem State.deliver_reads (s : State) (v : Byte) : (s.deliver v).reads = s.reads ++ [v] := rfl
@[simp] theorem State.deliver_bios (s : State) (v : Byte) : (s.deliver v).bios = s.bios := rfl
@[simp] theorem State.deliver_cart (s : State) (v : Byte) : (s.deliver v).cart = s.cart := rfl
@[simp] theorem State.deliver_vram (s : State) (v : Byte) : (s.deliver v).vram = s.vram := rfl
@[simp] theorem State.deliver_wram (s : State) (v : Byte) : (s.deliver v).wram = s.wram := rfl
@[simp] theorem State.deliver_oam (s : State) (v : Byte) : (s.deliver v).oam = s.oam := rfl
@[simp] theorem State.deliver_hram (s : State) (v : Byte) : (s.deliver v).hram = s.hram := rfl
@[simp] theorem State.deliver_biosEnabled (s : State) (v : Byte) : (s.deliver v).biosEnabled = s.biosEnabled := rfl
@[simp] theorem State.deliver_fault (s : State) (v : Byte) : (s.deliver v).fault = s.fault := rfl
@[simp] theorem State.deliver_pending (s : State) (v : Byte) : (s.deliver v).pending = s.pending := rfl

/-! ## `enterFatal`: the fault record alone changes (R206) -/

@[simp] theorem State.enterFatal_fault (s : State) (f : Fatal) : (s.enterFatal f).fault = some f := rfl
@[simp] theorem State.enterFatal_bios (s : State) (f : Fatal) : (s.enterFatal f).bios = s.bios := rfl
@[simp] theorem State.enterFatal_cart (s : State) (f : Fatal) : (s.enterFatal f).cart = s.cart := rfl
@[simp] theorem State.enterFatal_vram (s : State) (f : Fatal) : (s.enterFatal f).vram = s.vram := rfl
@[simp] theorem State.enterFatal_wram (s : State) (f : Fatal) : (s.enterFatal f).wram = s.wram := rfl
@[simp] theorem State.enterFatal_oam (s : State) (f : Fatal) : (s.enterFatal f).oam = s.oam := rfl
@[simp] theorem State.enterFatal_hram (s : State) (f : Fatal) : (s.enterFatal f).hram = s.hram := rfl
@[simp] theorem State.enterFatal_biosEnabled (s : State) (f : Fatal) : (s.enterFatal f).biosEnabled = s.biosEnabled := rfl
@[simp] theorem State.enterFatal_pending (s : State) (f : Fatal) : (s.enterFatal f).pending = s.pending := rfl
@[simp] theorem State.enterFatal_reads (s : State) (f : Fatal) : (s.enterFatal f).reads = s.reads := rfl

/-! ## The mode inputs and the stores -/

@[simp] theorem State.mode_biosEnabled (s : State) : s.mode.biosEnabled = s.biosEnabled := rfl
@[simp] theorem State.mode_cart (s : State) : s.mode.cart = s.cart.kind := rfl
@[simp] theorem Cart.kind_none : Cart.none.kind = .none := rfl
@[simp] theorem Cart.kind_mbc1 (c : Mbc1) : (Cart.mbc1 c).kind = .mbc1 := rfl

@[simp] theorem State.deliver_mode (s : State) (v : Byte) : (s.deliver v).mode = s.mode := rfl
@[simp] theorem State.enterFatal_mode (s : State) (f : Fatal) : (s.enterFatal f).mode = s.mode := rfl

theorem State.deliver_store (s : State) (v : Byte) (dev : Device) : (s.deliver v).store dev = s.store dev := by
  cases dev <;> rfl

theorem State.enterFatal_store (s : State) (f : Fatal) (dev : Device) : (s.enterFatal f).store dev = s.store dev := by
  cases dev <;> rfl

@[simp] theorem State.deliver_cell (s : State) (v : Byte) (c : Cell) : (s.deliver v).cell c = s.cell c := by
  simp only [State.cell, State.deliver_store]

@[simp] theorem State.enterFatal_cell (s : State) (f : Fatal) (c : Cell) : (s.enterFatal f).cell c = s.cell c := by
  simp only [State.cell, State.enterFatal_store]

/-- A cartridge whose kind is NONE holds nothing. -/
theorem Cart.kind_eq_none {c : Cart} : c.kind = .none ↔ c = .none := by
  cases c <;> simp

/-- A cartridge whose kind is MBC1 holds a controller. -/
theorem Cart.kind_eq_mbc1 {c : Cart} : c.kind = .mbc1 ↔ ∃ m, c = .mbc1 m := by
  cases c <;> simp

/-- When a cell exists. -/
theorem Cell.valid_iff {c : Cell} : c.valid = true ↔ c.dev.holdsBytes = true ∧ c.off < c.dev.size := by
  simp [Cell.valid]

end Sys2Proof.Machine
end

