-- ==== Sys2Proof/Laws/Ops.lean ====
section
/-! SUPPORT. One lemma for each shared operation that says once what it can do; later proofs cite these and do not unfold
the operations. -/

namespace Sys2Proof.Machine

/-! ## `orFatal` and the ends of an access -/

@[simp] theorem orFatal_ok {α β : Type} (x : α) (k : α → Except Fatal β) : orFatal (.ok x) k = k x := rfl
@[simp] theorem orFatal_error {α β : Type} (f : Fatal) (k : α → Except Fatal β) : orFatal (.error f) k = .error f := rfl

@[simp] theorem endRead_ok (s : State) (v : Byte) : endRead s (.ok v) = .next (s.deliver v) := rfl
@[simp] theorem endRead_error (s : State) (f : Fatal) : endRead s (.error f) = .next (s.enterFatal f) := rfl
@[simp] theorem endWrite_ok (s t : State) : endWrite s (.ok t) = .next t := rfl
@[simp] theorem endWrite_error (s : State) (f : Fatal) : endWrite s (.error f) = .next (s.enterFatal f) := rfl

/-- A read that answers a next state delivered a byte or took a fatal. -/
theorem endRead_cases {s t : State} {r : Except Fatal Byte} (h : endRead s r = .next t) :
    (∃ v, r = .ok v ∧ t = s.deliver v) ∨ (∃ f, r = .error f ∧ t = s.enterFatal f) := by
  cases r with
  | ok v => exact .inl ⟨v, rfl, by simpa using h.symm⟩
  | error f => exact .inr ⟨f, rfl, by simpa using h.symm⟩

/-- A write that answers a next state answered its own or took a fatal. -/
theorem endWrite_cases {s t : State} {r : Except Fatal State} (h : endWrite s r = .next t) :
    r = .ok t ∨ (∃ f, r = .error f ∧ t = s.enterFatal f) := by
  cases r with
  | ok t' => exact .inl (by simpa using h)
  | error f => exact .inr ⟨f, rfl, by simpa using h.symm⟩

/-- A chain of checks that ends well passed each of them. -/
theorem orFatal_eq_ok {α β : Type} {r : Except Fatal α} {k : α → Except Fatal β} {y : β} :
    orFatal r k = .ok y ↔ ∃ x, r = .ok x ∧ k x = .ok y := by
  cases r <;> simp

/-! ## Addresses -/

@[simp] theorem newAddress_raw (a : Addr) : (newAddress a).raw = a := rfl
@[simp] theorem newAddress_rel (a : Addr) : (newAddress a).rel = a := rfl

/-- A fresh address always passes the top-level precondition (R69). -/
@[simp] theorem checkFresh_newAddress (a : Addr) : checkFresh (newAddress a) = .ok (newAddress a) :=
  if_pos rfl

/-- R62 where nothing underflows. -/
theorem reoffset_of_le {a : Address} {shift : Addr} (h : shift.toNat ≤ a.rel.toNat) :
    reoffset a shift = .ok ⟨a.raw, a.rel - shift⟩ :=
  if_neg (by simpa [BitVec.lt_def] using h)

/-- R62 where it underflows. -/
theorem reoffset_of_lt {a : Address} {shift : Addr} (h : a.rel.toNat < shift.toNat) :
    reoffset a shift = .error (.reoffsetUnderflow a.raw a.rel shift) :=
  if_pos (by simpa [BitVec.lt_def] using h)

/-- The number that a guarded subtraction gives (R11). -/
theorem toNat_sub_of_le {a b : Addr} (h : b.toNat ≤ a.toNat) : (a - b).toNat = a.toNat - b.toNat :=
  BitVec.toNat_sub_of_le h

/-! ## Device primitives -/

theorem inBounds_of_lt {dev : Device} {a : Address} (h : a.rel.toNat < dev.size) : inBounds dev a = .ok a :=
  if_neg (by omega)

theorem inBounds_of_ge {dev : Device} {a : Address} (h : dev.size ≤ a.rel.toNat) :
    inBounds dev a = .error (.deviceOutOfRange dev a.raw a.rel dev.size) :=
  if_pos h

/-- R64 inside the array. -/
theorem arrRead_of_lt {dev : Device} {m : Memory} {a : Address} (h : a.rel.toNat < dev.size) :
    arrRead dev m a = .ok (Memory.read m (dev.base + a.rel.toNat)) := by
  rw [arrRead, inBounds_of_lt h, orFatal_ok]

/-- R64 inside the array. -/
theorem arrWrite_of_lt {dev : Device} {m : Memory} {a : Address} (v : Byte) (h : a.rel.toNat < dev.size) :
    arrWrite dev m a v = .ok (Memory.write m (dev.base + a.rel.toNat) v) := by
  rw [arrWrite, inBounds_of_lt h, orFatal_ok]

/-- What a store is after an array write that passes its check. -/
theorem arrWrite_eq_ok {dev : Device} {m m' : Memory} {a : Address} {v : Byte} (h : arrWrite dev m a v = .ok m') :
    a.rel.toNat < dev.size ∧ m' = Memory.write m (dev.base + a.rel.toNat) v := by
  by_cases hlt : a.rel.toNat < dev.size
  · rw [arrWrite_of_lt v hlt] at h
    exact ⟨hlt, by simpa using h.symm⟩
  · rw [arrWrite, inBounds_of_ge (by omega)] at h
    simp at h

/-- Every 16-bit address is inside the null cartridge (R65, R150). -/
@[simp] theorem nullRead_eq (a : Address) : nullRead a = .ok 0x00 := by
  rw [nullRead, inBounds_of_lt (by exact a.rel.isLt), orFatal_ok]

@[simp] theorem nullWrite_eq {σ : Type} (a : Address) (s : σ) : nullWrite a s = .ok s := by
  rw [nullWrite, inBounds_of_lt (by exact a.rel.isLt), orFatal_ok]

/-- R66 inside the array. -/
theorem roWrite_of_lt {σ : Type} {dev : Device} {m : Memory} {a : Address} (s : σ) (h : a.rel.toNat < dev.size) :
    roWrite dev m a s = .ok s := by
  rw [roWrite, arrRead_of_lt h, orFatal_ok]

/-! ## A region of the top level: a re-offset and then the array (R93) -/

/-- A read of a region inside its array. -/
theorem regionRead_eq {dev : Device} {m : Memory} {base : Addr} {x : Address} (h : base.toNat ≤ x.rel.toNat)
    (h' : x.rel.toNat - base.toNat < dev.size) :
    (orFatal (reoffset x base) fun y => arrRead dev m y) =
      .ok (Memory.read m (dev.base + (x.rel.toNat - base.toNat))) := by
  have hs := toNat_sub_of_le h
  rw [reoffset_of_le h, orFatal_ok, arrRead_of_lt (by simpa [hs] using h'), hs]

/-- A write of a region inside its array. -/
theorem regionWrite_eq {α : Type} {dev : Device} {m : Memory} {base : Addr} {x : Address} {v : Byte}
    {k : Memory → Except Fatal α} (h : base.toNat ≤ x.rel.toNat) (h' : x.rel.toNat - base.toNat < dev.size) :
    (orFatal (reoffset x base) fun y => orFatal (arrWrite dev m y v) k) =
      k (Memory.write m (dev.base + (x.rel.toNat - base.toNat)) v) := by
  have hs := toNat_sub_of_le h
  rw [reoffset_of_le h, orFatal_ok, arrWrite_of_lt v (by simpa [hs] using h'), orFatal_ok, hs]

/-! ## The cartridge selector (R150) -/

theorem cartRead_none {s : State} (a : Address) (k : Mbc1 → Address → Except Fatal Byte) (h : s.cart = .none) :
    cartRead s a k = .ok 0x00 := by
  simp [cartRead, h]

theorem cartRead_mbc1 {s : State} {c : Mbc1} (a : Address) (k : Mbc1 → Address → Except Fatal Byte)
    (h : s.cart = .mbc1 c) : cartRead s a k = k c a := by
  simp [cartRead, h]

theorem cartWrite_none {s : State} (a : Address) (k : Mbc1 → Address → Except Fatal Mbc1) (h : s.cart = .none) :
    cartWrite s a k = .ok s := by
  simp [cartWrite, h]

theorem cartWrite_mbc1 {s : State} {c : Mbc1} (a : Address) (k : Mbc1 → Address → Except Fatal Mbc1)
    (h : s.cart = .mbc1 c) : cartWrite s a k = orFatal (k c a) fun c' => .ok { s with cart := .mbc1 c' } := by
  simp [cartWrite, h]

/-- What a cartridge write that passes its checks leaves: the state, or the state with another controller. -/
theorem cartWrite_eq_ok {s t : State} {a : Address} {k : Mbc1 → Address → Except Fatal Mbc1}
    (h : cartWrite s a k = .ok t) :
    (s.cart = .none ∧ t = s) ∨ ∃ c c', s.cart = .mbc1 c ∧ k c a = .ok c' ∧ t = { s with cart := .mbc1 c' } := by
  cases hc : s.cart with
  | none => rw [cartWrite_none a k hc] at h; exact .inl ⟨rfl, by simpa using h.symm⟩
  | mbc1 c =>
    rw [cartWrite_mbc1 a k hc] at h
    obtain ⟨c', h1, h2⟩ := orFatal_eq_ok.mp h
    exact .inr ⟨c, c', rfl, h1, by simpa using h2.symm⟩

/-! ## The data-byte fields as numbers (R101) -/

theorem ramEnableKey_eq (d : Byte) : ramEnableKey d = decide (d.toNat % 16 = 0xA) := by
  revert d; decide

theorem romBankField_eq (d : Byte) : romBankField d = BitVec.ofNat 5 (max (d.toNat % 32) 1) := by
  revert d; decide

theorem romBankField_toNat (d : Byte) : (romBankField d).toNat = max (d.toNat % 32) 1 := by
  revert d; decide

theorem bankSetField_eq (d : Byte) : bankSetField d = BitVec.ofNat 2 (d.toNat % 4) := by
  revert d; decide

theorem bit0_eq (d : Byte) : bit0 d = decide (d.toNat % 2 = 1) := by
  revert d; decide

/-! ## The effective banks as numbers (R156, R157) -/

/-- `(high_order << 5) | rom_bank` is a concatenation (R156). -/
theorem shiftOr_toNat (h : BitVec 2) (r : BitVec 5) :
    ((h.setWidth 7 <<< 5) ||| r.setWidth 7).toNat = h.toNat * 32 + r.toNat := by
  revert h r; decide

theorem effRomBank_toNat (c : Mbc1) :
    c.effRomBank.toNat = (if c.ramMode then 0 else c.bankSet.toNat) * 32 + c.romBank.toNat := by
  rw [Mbc1.effRomBank, shiftOr_toNat, Mbc1.highOrder]
  split <;> simp

theorem effRamBank_toNat (c : Mbc1) : c.effRamBank.toNat = if c.ramMode then c.bankSet.toNat else 0 := by
  rw [Mbc1.effRamBank]
  split <;> simp

/-! ## A transaction -/

/-- A transaction is its operation's own rule: the top-level precondition never fails (R69, R70, R71). -/
theorem transact_eq (t : Transaction) (s : State) : transact t s = exec (decode s.mode t) s := by
  rw [transact, checkFresh_newAddress]

end Sys2Proof.Machine
end

