-- ==== Sys2Proof/Laws/PerInstr.lean ====
section
/-! SUPPORT. The families of statements made per instruction, one lemma for each constructor of Instr. -/

namespace Sys2Proof.Laws.Serial

/-- The operation's bytes read back as its transaction, whatever bytes follow them (notes/assumptions 6). -/
def Statement (i : Instr) : Prop :=
  ∀ rest : List Byte, decodeSerial (encodeBytes i ++ rest) = .ok (encode i, rest)

theorem rdBios (a : Addr) : Statement (.rdBios a) := decodeSerial_toSerial _
theorem wrBios (a : Addr) (d : Byte) : Statement (.wrBios a d) := decodeSerial_toSerial _
theorem rdVram (a : Addr) : Statement (.rdVram a) := decodeSerial_toSerial _
theorem wrVram (a : Addr) (d : Byte) : Statement (.wrVram a d) := decodeSerial_toSerial _
theorem rdWram (a : Addr) : Statement (.rdWram a) := decodeSerial_toSerial _
theorem wrWram (a : Addr) (d : Byte) : Statement (.wrWram a d) := decodeSerial_toSerial _
theorem rdEcho (a : Addr) : Statement (.rdEcho a) := decodeSerial_toSerial _
theorem wrEcho (a : Addr) (d : Byte) : Statement (.wrEcho a d) := decodeSerial_toSerial _
theorem rdOam (a : Addr) : Statement (.rdOam a) := decodeSerial_toSerial _
theorem wrOam (a : Addr) (d : Byte) : Statement (.wrOam a d) := decodeSerial_toSerial _
theorem rdUnmapped (a : Addr) : Statement (.rdUnmapped a) := decodeSerial_toSerial _
theorem wrUnmapped (a : Addr) (d : Byte) : Statement (.wrUnmapped a d) := decodeSerial_toSerial _
theorem rdHram (a : Addr) : Statement (.rdHram a) := decodeSerial_toSerial _
theorem wrHram (a : Addr) (d : Byte) : Statement (.wrHram a d) := decodeSerial_toSerial _
theorem rdNocart (a : Addr) : Statement (.rdNocart a) := decodeSerial_toSerial _
theorem wrNocart (a : Addr) (d : Byte) : Statement (.wrNocart a d) := decodeSerial_toSerial _
theorem rdRom0 (a : Addr) : Statement (.rdRom0 a) := decodeSerial_toSerial _
theorem rdRomx (a : Addr) : Statement (.rdRomx a) := decodeSerial_toSerial _
theorem rdXram (a : Addr) : Statement (.rdXram a) := decodeSerial_toSerial _
theorem wrRamen (a : Addr) (d : Byte) : Statement (.wrRamen a d) := decodeSerial_toSerial _
theorem wrRomb (a : Addr) (d : Byte) : Statement (.wrRomb a d) := decodeSerial_toSerial _
theorem wrBankset (a : Addr) (d : Byte) : Statement (.wrBankset a d) := decodeSerial_toSerial _
theorem wrMode (a : Addr) (d : Byte) : Statement (.wrMode a d) := decodeSerial_toSerial _
theorem wrXram (a : Addr) (d : Byte) : Statement (.wrXram a d) := decodeSerial_toSerial _
theorem rdIoStub (a : Addr) : Statement (.rdIoStub a) := decodeSerial_toSerial _
theorem wrIoStub (a : Addr) (d : Byte) : Statement (.wrIoStub a d) := decodeSerial_toSerial _
theorem rdIoBoot : Statement .rdIoBoot := decodeSerial_toSerial _
theorem wrIoBoot (d : Byte) : Statement (.wrIoBoot d) := decodeSerial_toSerial _

end Sys2Proof.Laws.Serial
end

