-- ==== Sys2Proof/Laws/Route.lean ====
section
/-! SUPPORT. The routing tables with their comparisons as numbers, and the addresses that the two inner devices see. -/

namespace Sys2Proof.Machine

/-- R93 for a read that the host issues. -/
theorem topRead_eq (s : State) (a : Addr) :
    topRead s (newAddress a) =
    if a.toNat ≤ 0x00FF ∧ s.biosEnabled = true then arrRead .bios s.bios (newAddress a)
    else if a.toNat ≤ 0x7FFF then cartRead s (newAddress a) mbc1Read
    else if a.toNat ≤ 0x9FFF then orFatal (reoffset (newAddress a) 0x8000) fun x => arrRead .vram s.vram x
    else if a.toNat ≤ 0xBFFF then orFatal (reoffset (newAddress a) 0x2000) fun x => cartRead s x mbc1Read
    else if a.toNat ≤ 0xDFFF then orFatal (reoffset (newAddress a) 0xC000) fun x => arrRead .wram s.wram x
    else if a.toNat ≤ 0xFDFF then orFatal (reoffset (newAddress a) 0xE000) fun x => arrRead .wram s.wram x
    else if a.toNat ≤ 0xFE9F then orFatal (reoffset (newAddress a) 0xFE00) fun x => arrRead .oam s.oam x
    else if a.toNat ≤ 0xFEFF then .ok 0x00
    else if a.toNat ≤ 0xFF7F then orFatal (reoffset (newAddress a) 0xFF00) fun x => ioRead s.biosEnabled x
    else if a.toNat ≤ 0xFFFE then orFatal (reoffset (newAddress a) 0xFF80) fun x => arrRead .hram s.hram x
    else .ok 0x00 := by
  simp only [topRead, checkFresh_newAddress, orFatal_ok, newAddress_raw, BitVec.le_def, Bool.and_eq_true,
    decide_eq_true_eq, BitVec.reduceToNat]
  congr

/-- R93 for a write that the host issues. -/
theorem topWrite_eq (s : State) (a : Addr) (d : Byte) :
    topWrite s (newAddress a) d =
    if a.toNat ≤ 0x00FF ∧ s.biosEnabled = true then roWrite .bios s.bios (newAddress a) s
    else if a.toNat ≤ 0x7FFF then cartWrite s (newAddress a) fun c x => mbc1Write c x d
    else if a.toNat ≤ 0x9FFF then orFatal (reoffset (newAddress a) 0x8000) fun x =>
      orFatal (arrWrite .vram s.vram x d) fun m => .ok { s with vram := m }
    else if a.toNat ≤ 0xBFFF then orFatal (reoffset (newAddress a) 0x2000) fun x =>
      cartWrite s x fun c y => mbc1Write c y d
    else if a.toNat ≤ 0xDFFF then orFatal (reoffset (newAddress a) 0xC000) fun x =>
      orFatal (arrWrite .wram s.wram x d) fun m => .ok { s with wram := m }
    else if a.toNat ≤ 0xFDFF then orFatal (reoffset (newAddress a) 0xE000) fun x =>
      orFatal (arrWrite .wram s.wram x d) fun m => .ok { s with wram := m }
    else if a.toNat ≤ 0xFE9F then orFatal (reoffset (newAddress a) 0xFE00) fun x =>
      orFatal (arrWrite .oam s.oam x d) fun m => .ok { s with oam := m }
    else if a.toNat ≤ 0xFEFF then .ok s
    else if a.toNat ≤ 0xFF7F then orFatal (reoffset (newAddress a) 0xFF00) fun x =>
      orFatal (ioWrite s.biosEnabled x d) fun b => .ok { s with biosEnabled := b }
    else if a.toNat ≤ 0xFFFE then orFatal (reoffset (newAddress a) 0xFF80) fun x =>
      orFatal (arrWrite .hram s.hram x d) fun m => .ok { s with hram := m }
    else .ok s := by
  simp only [topWrite, checkFresh_newAddress, orFatal_ok, newAddress_raw, BitVec.le_def, Bool.and_eq_true,
    decide_eq_true_eq, BitVec.reduceToNat]
  congr

/-- R99 below the RAM window. -/
theorem cartAddress_low {a : Addr} (h : a.toNat ≤ 0x7FFF) : cartAddress a = .ok (newAddress a) :=
  if_neg (by simp only [ge_iff_le, BitVec.le_def, BitVec.reduceToNat]; omega)

/-- R99 in the RAM window. -/
theorem cartAddress_high {a : Addr} (h : 0xA000 ≤ a.toNat) : cartAddress a = reoffset (newAddress a) 0x2000 :=
  if_pos (by simpa [BitVec.le_def] using h)

/-- R190: inside the window the I/O block sees `A - 0xFF00`. -/
theorem ioAddress_of {a : Addr} (h : 0xFF00 ≤ a.toNat) (h' : a.toNat ≤ 0xFF7F) :
    ioAddress a = .ok ⟨a, a - 0xFF00⟩ := by
  have hs : (a - 0xFF00).toNat = a.toNat - 0xFF00 := toNat_sub_of_le (by simpa using h)
  rw [ioAddress, reoffset_of_le (by simpa using h), orFatal_ok]
  exact inBounds_of_lt (by simp only [newAddress_rel, hs, Device.size, Config.ioSize]; omega)

end Sys2Proof.Machine
end

