-- ==== Sys2Proof/Laws/Run.lean ====
section
/-! SUPPORT. Runs of several steps: what the host's run does at one step, and the induction over it. -/

namespace Sys2Proof.Machine

/-- A run of `k + 1` steps that ends in a state takes a step and then `k` more. -/
theorem coreRun_succ_cases (M : Host.Core) {k : Nat} {s u : M.State} (h : M.run (k + 1) s = .next u) :
    ∃ t, M.step s = .next t ∧ M.run k t = .next u := by
  rw [Host.Core.run.eq_2] at h
  cases h' : M.step s <;> rw [h'] at h
  · exact ⟨_, rfl, h⟩
  · cases h
  · cases h

/-- The other way round. -/
theorem coreRun_succ (M : Host.Core) {k : Nat} {s t : M.State} (h : M.step s = .next t) :
    M.run (k + 1) s = M.run k t := by
  rw [Host.Core.run.eq_2, h]

/-- What a step keeps, a run keeps. -/
theorem coreRun_invariant (M : Host.Core) {P : M.State → Prop} (hstep : ∀ s t, P s → M.step s = .next t → P t)
    {k : Nat} {s u : M.State} (hs : P s) (h : M.run k s = .next u) : P u := by
  induction k generalizing s with
  | zero => cases h; exact hs
  | succ k ih =>
    obtain ⟨t, ht, hu⟩ := coreRun_succ_cases M h
    exact ih (hstep s t hs ht) hu

/-- If every step from a `P` state ends in a `P` state, so does every run. -/
theorem coreRun_total (M : Host.Core) {P : M.State → Prop} (hstep : ∀ s, P s → ∃ t, M.step s = .next t ∧ P t)
    (k : Nat) {s : M.State} (hs : P s) : ∃ u, M.run k s = .next u ∧ P u := by
  induction k generalizing s with
  | zero => exact ⟨s, rfl, hs⟩
  | succ k ih =>
    obtain ⟨t, ht, hpt⟩ := hstep s hs
    obtain ⟨u, hu, hpu⟩ := ih hpt
    exact ⟨u, (coreRun_succ M ht).trans hu, hpu⟩

end Sys2Proof.Machine
end

