-- ==== Sys2Proof/Tests/Slice0.lean ====
section
/-! SUPPORT. The model's own tests: the well-formedness smoke, words written out from the spec's encodings, one step per
operation with results from spec/95_test_vectors.md, and a witness for the hypotheses of every obligation. -/

namespace Sys2Proof.Tests

open Sys2Proof.Machine

/-! ## Fixtures: the configurations A, B and N of 95_test_vectors.md, with the bytes that the tests read -/

/-- `bios[i] = i XOR 0xB0`. -/
def biosBytes : Memory := [(0x00, 0xB0), (0x50, 0xE0), (0xFF, 0x4F)]

/-- `rom[b][o] = b XOR o[7:0]`: offset 0 of banks 1, 5, 33, 37, 69 and 127, and some of bank 0. -/
def romBytes : Memory :=
  [(0x50, 0x50), (0x2010, 0x10), (0x3FFF, 0xFF), (0x4000, 0x01), (0x7FFF, 0xFE), (0x14000, 0x05), (0x84000, 0x21),
    (0x94000, 0x25), (0x114000, 0x45), (0x1FC000, 0x7F)]

/-- `ram[b][k] = 0xC0 + b`: the first and the last byte of each bank. -/
def ramBytes : Memory :=
  [(0x0000, 0xC0), (0x1FFF, 0xC0), (0x2000, 0xC1), (0x3FFF, 0xC1), (0x4000, 0xC2), (0x5FFF, 0xC2), (0x6000, 0xC3),
    (0x7FFF, 0xC3)]

/-- An MBC1 with these registers. -/
def mbc (hasRam ramEnable : Bool) (romBank : BitVec 5) (bankSet : BitVec 2) (ramMode : Bool) : Mbc1 :=
  ⟨romBytes, ramBytes, hasRam, ramEnable, romBank, bankSet, ramMode⟩

/-- A block with this cartridge, the bios mapped or not. -/
def block (biosEnabled : Bool) (cart : Cart) : State :=
  { State.reset with bios := biosBytes, cart := cart, biosEnabled := biosEnabled }

/-- Configuration A at reset, and with the bios unmapped. -/
def cfgA : State := block true (.mbc1 (mbc true false 1 0 false))
def cfgAOff : State := block false (.mbc1 (mbc true false 1 0 false))
/-- Configuration B with the bios unmapped. -/
def cfgBOff : State := block false (.mbc1 (mbc false false 1 0 false))
/-- Configuration N at reset, and with the bios unmapped. -/
def cfgN : State := block true .none
def cfgNOff : State := block false .none
/-- Configuration A, the bios unmapped, with these registers. -/
def regsA (ramEnable : Bool) (romBank : BitVec 5) (bankSet : BitVec 2) (ramMode : Bool) : State :=
  block false (.mbc1 (mbc true ramEnable romBank bankSet ramMode))

/-- One step of a block to which the host issues `t`. -/
def after (s : State) (t : Transaction) : Option State :=
  match step { s with pending := [t] } with
  | .next s' => some s'
  | .fault _ => none
  | .refused _ => none

/-- `RD a` from `s`: the byte returned. -/
def rd (s : State) (a : Addr) : Option (List Byte) := (after s (.read a)).map State.reads

/-- `WR a, d` from `s`: the bytes of a store at an offset after it. -/
def wr (s : State) (a : Addr) (d : Byte) (store : State → Memory) (k : Nat) : Option Byte :=
  (after s (.write a d)).map fun t => Memory.read (store t) k

/-- `WR a, d` from `s`: the MBC1 registers `ram_enable`, `rom_bank`, `bank_set`, `ram_mode` after it. -/
def wrRegs (s : State) (a : Addr) (d : Byte) : Option (Bool × BitVec 5 × BitVec 2 × Bool) :=
  (after s (.write a d)).bind fun t => match t.cart with
    | .none => none
    | .mbc1 c => some (c.ramEnable, c.romBank, c.bankSet, c.ramMode)

/-- The stored MBC1 RAM. -/
def xram (t : State) : Memory := t.store (.ramBank 0)

/-! ## WellFormed refuses an ill-formed term, check by check (R100) -/

theorem test_wellformed_bios :
    (Instr.rdBios 0x0100).wellFormed ⟨true, .mbc1⟩ = false ∧ (Instr.rdBios 0x0000).wellFormed ⟨false, .mbc1⟩ = false ∧
    (Instr.wrBios 0x0100 0).wellFormed ⟨true, .none⟩ = false ∧ (Instr.wrBios 0x00FF 0).wellFormed ⟨false, .none⟩ = false
    := by decide

theorem test_wellformed_arrays :
    (Instr.rdVram 0x7FFF).wellFormed ⟨true, .mbc1⟩ = false ∧ (Instr.wrVram 0xA000 0).wellFormed ⟨true, .mbc1⟩ = false ∧
    (Instr.rdWram 0xBFFF).wellFormed ⟨true, .mbc1⟩ = false ∧ (Instr.wrWram 0xE000 0).wellFormed ⟨true, .mbc1⟩ = false ∧
    (Instr.rdEcho 0xDFFF).wellFormed ⟨true, .mbc1⟩ = false ∧ (Instr.wrEcho 0xFE00 0).wellFormed ⟨true, .mbc1⟩ = false ∧
    (Instr.rdOam 0xFDFF).wellFormed ⟨true, .mbc1⟩ = false ∧ (Instr.wrOam 0xFEA0 0).wellFormed ⟨true, .mbc1⟩ = false ∧
    (Instr.rdHram 0xFF7F).wellFormed ⟨true, .mbc1⟩ = false ∧ (Instr.wrHram 0xFFFF 0).wellFormed ⟨true, .mbc1⟩ = false
    := by decide

theorem test_wellformed_holes_and_io :
    (Instr.rdUnmapped 0xFE9F).wellFormed ⟨true, .mbc1⟩ = false ∧
    (Instr.wrUnmapped 0xFFFE 0).wellFormed ⟨true, .mbc1⟩ = false ∧
    (Instr.rdUnmapped 0xFF00).wellFormed ⟨true, .mbc1⟩ = false ∧
    (Instr.rdIoStub 0xFF50).wellFormed ⟨true, .mbc1⟩ = false ∧
    (Instr.wrIoStub 0xFF80 0).wellFormed ⟨true, .mbc1⟩ = false ∧
    (Instr.wrIoStub 0xFEFF 0).wellFormed ⟨true, .mbc1⟩ = false := by decide

theorem test_wellformed_nocart :
    (Instr.rdNocart 0x00FF).wellFormed ⟨true, .none⟩ = false ∧ (Instr.wrNocart 0x8000 0).wellFormed ⟨true, .none⟩ = false ∧
    (Instr.rdNocart 0x9FFF).wellFormed ⟨false, .none⟩ = false ∧
    (Instr.wrNocart 0xC000 0).wellFormed ⟨false, .none⟩ = false ∧
    (Instr.rdNocart 0x4000).wellFormed ⟨true, .mbc1⟩ = false := by decide

theorem test_wellformed_mbc1 :
    (Instr.rdRom0 0x00FF).wellFormed ⟨true, .mbc1⟩ = false ∧ (Instr.rdRom0 0x4000).wellFormed ⟨true, .mbc1⟩ = false ∧
    (Instr.rdRomx 0x3FFF).wellFormed ⟨true, .mbc1⟩ = false ∧ (Instr.rdRomx 0x4000).wellFormed ⟨true, .none⟩ = false ∧
    (Instr.rdXram 0x9FFF).wellFormed ⟨true, .mbc1⟩ = false ∧ (Instr.wrXram 0xC000 0).wellFormed ⟨true, .mbc1⟩ = false ∧
    (Instr.wrRamen 0x00FF 0).wellFormed ⟨true, .mbc1⟩ = false ∧
    (Instr.wrRamen 0x2000 0).wellFormed ⟨true, .mbc1⟩ = false ∧
    (Instr.wrRomb 0x1FFF 0).wellFormed ⟨true, .mbc1⟩ = false ∧
    (Instr.wrBankset 0x6000 0).wellFormed ⟨true, .mbc1⟩ = false ∧
    (Instr.wrMode 0x5FFF 0).wellFormed ⟨true, .mbc1⟩ = false ∧ (Instr.wrMode 0x6000 0).wellFormed ⟨true, .none⟩ = false
    := by decide

/-! ## Decode: every operation's word, written out bit by bit from its rule's "Encoding" line (W, then A[15:0]) -/

/-- The operation of a decode word, with this data byte. -/
def ofWord (m : Mode) (dw : BitVec 17) (d : Byte) : Instr :=
  decode m (if dw.getLsbD 16 then .write (dw.setWidth 16) d else .read (dw.setWidth 16))

/-- R124, R125: W, A[15:8] = 0x00, with the bios enabled. -/
theorem test_decode_bios :
    ofWord ⟨true, .mbc1⟩ 0b0_0000_0000_0101_0000 0 = .rdBios 0x0050 ∧
    ofWord ⟨true, .none⟩ 0b1_0000_0000_1111_1111 0x0A = .wrBios 0x00FF 0x0A := by decide

/-- R126 to R129: A[15:13] = 0b100, and 0b110. -/
theorem test_decode_vram_wram :
    ofWord ⟨true, .mbc1⟩ 0b0_1000_0000_0000_0000 0 = .rdVram 0x8000 ∧
    ofWord ⟨true, .mbc1⟩ 0b1_1001_1111_1111_1111 0xA5 = .wrVram 0x9FFF 0xA5 ∧
    ofWord ⟨false, .none⟩ 0b0_1101_1111_1111_1111 0 = .rdWram 0xDFFF ∧
    ofWord ⟨false, .none⟩ 0b1_1100_0000_0001_0000 0x42 = .wrWram 0xC010 0x42 := by decide

/-- R130 to R133. -/
theorem test_decode_echo_oam :
    ofWord ⟨true, .mbc1⟩ 0b0_1110_0000_0001_0000 0 = .rdEcho 0xE010 ∧
    ofWord ⟨true, .mbc1⟩ 0b1_1111_1101_1111_1111 0x99 = .wrEcho 0xFDFF 0x99 ∧
    ofWord ⟨true, .mbc1⟩ 0b0_1111_1110_0000_0000 0 = .rdOam 0xFE00 ∧
    ofWord ⟨true, .mbc1⟩ 0b1_1111_1110_1001_1111 0x11 = .wrOam 0xFE9F 0x11 := by decide

/-- R134 to R137. -/
theorem test_decode_unmapped_hram :
    ofWord ⟨true, .mbc1⟩ 0b0_1111_1111_1111_1111 0 = .rdUnmapped 0xFFFF ∧
    ofWord ⟨true, .mbc1⟩ 0b1_1111_1110_1010_0000 0x22 = .wrUnmapped 0xFEA0 0x22 ∧
    ofWord ⟨true, .mbc1⟩ 0b0_1111_1111_1111_1110 0 = .rdHram 0xFFFE ∧
    ofWord ⟨true, .mbc1⟩ 0b1_1111_1111_1000_0000 0x33 = .wrHram 0xFF80 0x33 := by decide

/-- R151, R152: no cartridge. -/
theorem test_decode_nocart :
    ofWord ⟨false, .none⟩ 0b0_0000_0000_0000_0000 0 = .rdNocart 0x0000 ∧
    ofWord ⟨true, .none⟩ 0b0_1011_1111_1111_1111 0 = .rdNocart 0xBFFF ∧
    ofWord ⟨true, .none⟩ 0b1_0010_0000_0000_0000 0x05 = .wrNocart 0x2000 0x05 := by decide

/-- R158 to R160: A[15:14] = 0b01 is RD_ROMX, A[15:13] = 0b101 is RD_XRAM. -/
theorem test_decode_mbc1_reads :
    ofWord ⟨true, .mbc1⟩ 0b0_0000_0001_0000_0000 0 = .rdRom0 0x0100 ∧
    ofWord ⟨true, .mbc1⟩ 0b0_0100_0001_0010_0011 0 = .rdRomx 0x4123 ∧
    ofWord ⟨true, .mbc1⟩ 0b0_1011_1111_1111_1111 0 = .rdXram 0xBFFF := by decide

/-- R161 to R165: A[15:13] = 0b000, 0b001, 0b010, 0b011 and 0b101. -/
theorem test_decode_mbc1_writes :
    ofWord ⟨false, .mbc1⟩ 0b1_0001_1111_1111_1111 0x3A = .wrRamen 0x1FFF 0x3A ∧
    ofWord ⟨true, .mbc1⟩ 0b1_0010_0000_0000_0000 0x05 = .wrRomb 0x2000 0x05 ∧
    ofWord ⟨true, .mbc1⟩ 0b1_0100_0000_0000_0000 0x07 = .wrBankset 0x4000 0x07 ∧
    ofWord ⟨true, .mbc1⟩ 0b1_0110_0000_0000_0000 0x01 = .wrMode 0x6000 0x01 ∧
    ofWord ⟨true, .mbc1⟩ 0b1_1010_0001_0010_0011 0x5A = .wrXram 0xA123 0x5A := by decide

/-- R191 to R194: the latch is 0x0FF50 and 0x1FF50 under the mask 0x1FFFF. -/
theorem test_decode_io :
    ofWord ⟨true, .mbc1⟩ 0b0_1111_1111_0100_1111 0 = .rdIoStub 0xFF4F ∧
    ofWord ⟨true, .mbc1⟩ 0b1_1111_1111_0100_0110 0xC0 = .wrIoStub 0xFF46 0xC0 ∧
    ofWord ⟨true, .mbc1⟩ 0b0_1111_1111_0101_0000 0 = .rdIoBoot ∧
    ofWord ⟨true, .mbc1⟩ 0b1_1111_1111_0101_0000 0x11 = .wrIoBoot 0x11 := by decide

/-- The decode words of 95_test_vectors.md §0, and what is no transaction (notes/assumptions 6). -/
theorem test_serial_form :
    (Transaction.read 0x4000).decodeWord = 0x04000 ∧ (Transaction.write 0x2000 0x05).decodeWord = 0x12000 ∧
    decodeTableWord 32 0x05012000 = some (.wrRomb 0x2000 0x05) ∧ decodeTableWord 24 0x0FF50 = some .rdIoBoot ∧
    decodeTableWord 24 0x20000 = none ∧ decodeSerial [0x00, 0x20] = .error (.truncated 2) := by decide

/-- R105: the transaction syntax. -/
theorem test_text :
    (Transaction.read 0xA00B).text = ['R', 'D', ' ', 'A', '0', '0', 'B'] ∧
    (Transaction.write 0xFF50 0x01).text = ['W', 'R', ' ', 'F', 'F', '5', '0', ',', ' ', '0', '1'] := by decide

/-! ## One step per operation (95_test_vectors.md) -/

/-- V40-1, V40-2. -/
theorem test_rdBios : rd cfgA 0x0000 = some [0xB0] ∧ rd cfgA 0x00FF = some [0x4F] := by decide
/-- P1 step 3. -/
theorem test_wrBios : wrRegs cfgA 0x0000 0x0A = some (false, 1, 0, false) ∧ wr cfgA 0x00FF 0x00 State.bios 0xFF = some 0x4F
    := by decide
/-- V40-6. -/
theorem test_rdVram : rd { cfgN with vram := [(0x1FFF, 0x5C)] } 0x9FFF = some [0x5C] := by decide
theorem test_wrVram : wr cfgN 0x9FFF 0xA5 State.vram 0x1FFF = some 0xA5 := by decide
/-- V40-10, V40-9. -/
theorem test_rdWram : rd { cfgN with wram := [(0x1FFF, 0x04)] } 0xDFFF = some [0x04] := by decide
theorem test_wrWram : wr cfgN 0xC010 0x42 State.wram 0x0010 = some 0x42 := by decide
/-- S3, V40-8, P4 step 3. -/
theorem test_rdEcho : rd { cfgN with wram := [(0x1DFF, 0x02)] } 0xFDFF = some [0x02] := by decide
theorem test_wrEcho : wr cfgN 0xFDFF 0x99 State.wram 0x1DFF = some 0x99 := by decide
/-- P4 steps 7 and 8. -/
theorem test_rdOam : rd { cfgN with oam := [(0x9F, 0x11)] } 0xFE9F = some [0x11] := by decide
theorem test_wrOam : wr cfgN 0xFE9F 0x11 State.oam 0x9F = some 0x11 := by decide
/-- V40-12, V40-14, V40-15. -/
theorem test_rdUnmapped : rd cfgN 0xFEFF = some [0x00] ∧ rd cfgN 0xFFFF = some [0x00] := by decide
theorem test_wrUnmapped : after cfgN (.write 0xFFFF 0x1F) = some cfgN := by decide
/-- P4 steps 11 to 14. -/
theorem test_rdHram : rd { cfgN with hram := [(0x7E, 0x44)] } 0xFFFE = some [0x44] := by decide
theorem test_wrHram : wr cfgN 0xFF80 0x33 State.hram 0x00 = some 0x33 := by decide
/-- V41-1, V41-3. -/
theorem test_rdNocart : rd cfgNOff 0x0000 = some [0x00] ∧ rd cfgN 0xBFFF = some [0x00] := by decide
/-- P4 steps 22 and 24. -/
theorem test_wrNocart : after cfgNOff (.write 0x2000 0x05) = some cfgNOff ∧ after cfgN (.write 0xA000 0x5A) = some cfgN
    := by decide
/-- V41-4, V70-4. -/
theorem test_rdRom0 : rd cfgAOff 0x3FFF = some [0xFF] ∧ rd (regsA false 5 3 true) 0x2010 = some [0x10] := by decide
/-- V41-14, V41-15. -/
theorem test_rdRomx_mode0 : rd (regsA false 5 2 false) 0x4000 = some [0x45] ∧ rd (regsA false 31 3 false) 0x4000 = some [0x7F]
    := by decide
/-- V41-16, V41-6. -/
theorem test_rdRomx_mode1 : rd (regsA false 5 2 true) 0x4000 = some [0x05] ∧ rd cfgAOff 0x7FFF = some [0xFE] := by decide
/-- V41-26, V41-27. -/
theorem test_rdXram : rd (regsA true 1 2 false) 0xA000 = some [0xC0] ∧ rd (regsA true 1 2 true) 0xA000 = some [0xC2]
    := by decide
/-- S1: RAM disabled. -/
theorem test_rdXram_disabled : rd cfgAOff 0xBFFF = some [0x00] := by decide
/-- V41-21, V41-23. -/
theorem test_wrRamen : wrRegs cfgAOff 0x1FFF 0xFA = some (true, 1, 0, false) ∧
    wrRegs (regsA true 1 0 false) 0x0000 0x0B = some (false, 1, 0, false) := by decide
/-- V41-25. -/
theorem test_wrRamen_without_ram : wrRegs cfgBOff 0x0000 0x0A = some (false, 1, 0, false) := by decide
/-- V41-8, V41-10. -/
theorem test_wrRomb : wrRegs (regsA false 7 0 false) 0x2000 0x20 = some (false, 1, 0, false) ∧
    wrRegs cfgAOff 0x3FFF 0xE5 = some (false, 5, 0, false) := by decide
/-- V41-15, V41-18. -/
theorem test_wrBankset : wrRegs cfgAOff 0x4000 0x07 = some (false, 1, 3, false) ∧
    wrRegs (regsA false 1 3 false) 0x5FFF 0xFC = some (false, 1, 0, false) := by decide
/-- V41-28, V41-29. -/
theorem test_wrMode : wrRegs cfgAOff 0x6000 0xFF = some (false, 1, 0, true) ∧
    wrRegs (regsA false 1 0 true) 0x7FFF 0xFE = some (false, 1, 0, false) := by decide
/-- V41-17. -/
theorem test_wrMode_without_ram : wrRegs cfgBOff 0x6000 0x01 = some (false, 1, 0, false) := by decide
/-- P3 step 8. -/
theorem test_wrXram : wr (regsA true 1 3 true) 0xA000 0x5A xram 0x6000 = some 0x5A ∧
    wr (regsA true 1 3 true) 0xA000 0x5A xram 0x0000 = some 0xC0 := by decide
/-- V41-32. -/
theorem test_wrXram_disabled : after cfgAOff (.write 0xA000 0x12) = some cfgAOff := by decide
/-- V42-2, V42-3. -/
theorem test_rdIoStub : rd cfgN 0xFF4F = some [0xFF] ∧ rd cfgN 0xFF51 = some [0xFF] := by decide
/-- V42-5. -/
theorem test_wrIoStub : after cfgN (.write 0xFF01 0x00) = some cfgN := by decide
/-- V42-6, V42-9. -/
theorem test_rdIoBoot : rd cfgA 0xFF50 = some [0x01] ∧ rd cfgAOff 0xFF50 = some [0x00] := by decide
/-- V42-9, V42-8. -/
theorem test_wrIoBoot : after cfgA (.write 0xFF50 0x11) = some cfgAOff ∧ after cfgA (.write 0xFF50 0x10) = some cfgA
    := by decide

/-! ## The fatal checks (V60-1 to V60-8) and construction (S7) -/

theorem test_V60_reoffset :
    reoffset (newAddress 0x0010) 0x2000 = .error (.reoffsetUnderflow 0x0010 0x0010 0x2000) ∧
    reoffset (newAddress 0xA000) 0x2000 = .ok ⟨0xA000, 0x8000⟩ := by decide

theorem test_V60_devices :
    arrRead .oam [] ⟨0xFEA0, 0xA0⟩ = .error (.deviceOutOfRange .oam 0xFEA0 0xA0 0xA0) ∧
    arrRead .oam [(0x9F, 0x11)] ⟨0xFE9F, 0x9F⟩ = .ok 0x11 ∧
    mbc1Read (mbc true true 1 0 false) (newAddress 0xA000) =
      .error (.deviceOutOfRange .mbc1 0xA000 0xA000 0xA000) ∧
    nullRead ⟨0xBFFF, 0x9FFF⟩ = .ok 0x00 := by decide

theorem test_V60_top_level : topRead cfgA ⟨0x8000, 0x0000⟩ = .error (.decoderOffsetAddress 0x8000 0x0000) := by decide

theorem test_V60_halted : after { cfgA with fault := some (.decoderOffsetAddress 0x8000 0x0000) } (.read 0x0000) = none
    := by decide

/-- An operation that no decoder gave its address records the fatal, and no byte (R201, R202). -/
theorem test_fatal_entry :
    exec (.rdOam 0xFEA0) cfgA =
      .next { cfgA with fault := some (.deviceOutOfRange .oam 0xFEA0 0x00A0 0xA0) } := rfl

theorem test_S7_construction :
    construct (List.replicate 255 0) .none ⟨[], [], [], [], []⟩ = .error (.biosSizeMismatch 255) ∧
    construct [] .none ⟨[], [], [], [], []⟩ = .error (.biosSizeMismatch 0) := by
  simp only [construct, List.length_replicate]
  decide

/-- R202's code numbers. -/
theorem test_codes : (ConstructionError.biosSizeMismatch 255).code = 1 ∧ (Fatal.deviceOutOfRange .oam 0 0 0).code = 2 ∧
    (Fatal.reoffsetUnderflow 0 0 0).code = 3 ∧ (Fatal.decoderOffsetAddress 0 0).code = 4 := by decide

/-! ## Witnesses: states and operands that meet the hypotheses of the obligations, clause by clause -/

theorem test_witness_encoding :
    (Instr.rdVram 0x9FFF).wellFormed ⟨true, .mbc1⟩ = true ∧ (Instr.wrIoBoot 0xFF).wellFormed ⟨false, .none⟩ = true := by
  decide

/-- ModeInputsChangeOnlyTheirRanges. -/
theorem test_witness_mode_inputs :
    0x00FF < (Transaction.read 0x0100).addr.toNat ∧ 0x8000 ≤ (Transaction.read 0x8000).addr.toNat ∧
    (Transaction.read 0x9FFF).addr.toNat ≤ 0x9FFF ∧ 0xC000 ≤ (Transaction.read 0xC000).addr.toNat := by decide

/-- StepRunsTheDecodedOperation, StepIdleHoldsAndHaltedStops. -/
theorem test_witness_step :
    ({ cfgA with pending := [.read 0x0000] } : State).fault = none ∧
    ({ cfgA with pending := [.read 0x0000] } : State).pending = .read 0x0000 :: [] ∧
    cfgA.fault = none ∧ cfgA.pending = [] ∧
    ({ cfgA with fault := some (.decoderOffsetAddress 0 0) } : State).fault = some (.decoderOffsetAddress 0 0) := by decide

/-- PlacedWordIsTheNextOperation. -/
theorem test_witness_placed_word :
    State.reset.fault = none ∧ tableTransaction 24 0x12000 = .ok (.write 0x2000 0x00) ∧
    State.reset.mode = Config.resetMode := by decide

/-- ReoffsetSubtractsOrIsFatal, at `shift = rel + 1` and at `shift = rel`. -/
theorem test_witness_reoffset :
    (newAddress 0x1FFF).rel.toNat < (0x2000 : Addr).toNat ∧ (0x2000 : Addr).toNat ≤ (newAddress 0x2000).rel.toNat ∧
    (newAddress 0x2000).rel.toNat ≤ (newAddress 0x2000).raw.toNat := by decide

/-- ByteArrayDeviceChecksItsBounds, NullAndReadOnlyDevicesDiscardWrites. -/
theorem test_witness_bounds :
    Device.oam.size ≤ (Address.mk 0xFEA0 0xA0).rel.toNat ∧ (Address.mk 0xFE9F 0x9F).rel.toNat < Device.oam.size ∧
    (0x9E : Nat) ≠ Device.oam.base + (Address.mk 0xFE9F 0x9F).rel.toNat ∧
    (Address.mk 0x00FF 0x00FF).rel.toNat < Device.bios.size ∧ Device.bios.size ≤ (Address.mk 0x0100 0x0100).rel.toNat := by
  decide

/-- TopLevelNeedsAFreshAddress. -/
theorem test_witness_fresh : (Address.mk 0x8000 0x0000).rel ≠ (Address.mk 0x8000 0x0000).raw := by decide

/-- Mbc1WindowIsChecked. -/
theorem test_witness_mbc1_window :
    (Address.mk 0xBFFF 0x9FFF).rel.toNat ≤ 0x9FFF ∧ 0x9FFF < (newAddress 0xA000).rel.toNat ∧
    (0x7FFF : Addr).toNat ≤ 0x7FFF ∧ 0xA000 ≤ (0xA000 : Addr).toNat ∧ (0xBFFF : Addr).toNat ≤ 0xBFFF := by decide

/-- FatalEntrySavesTheRecordOnly, MisroutedReadTakesTheUnderflowFatal. -/
theorem test_witness_fatal_entry : ∃ t, exec (.rdVram 0x7FFF) cfgA = .next t ∧ t.fault ≠ cfgA.fault :=
  ⟨_, rfl, by decide⟩
theorem test_witness_misrouted : (0x7FFF : Addr).toNat < 0x8000 ∧ (0xBFFF : Addr).toNat < 0xC000 ∧
    (0xFDFF : Addr).toNat < 0xFE00 ∧ (0xFF7F : Addr).toNat < 0xFF80 := by decide

/-- The plain-memory result statements: both ends of each range. -/
theorem test_witness_plain_memory :
    (0x00FF : Addr).toNat ≤ 0x00FF ∧ cfgA.biosEnabled = true ∧ cfgAOff.biosEnabled = false ∧
    0x8000 ≤ (0x8000 : Addr).toNat ∧ (0x9FFF : Addr).toNat ≤ 0x9FFF ∧
    0xC000 ≤ (0xC000 : Addr).toNat ∧ (0xDFFF : Addr).toNat ≤ 0xDFFF ∧ (0xDDFF : Addr).toNat ≤ 0xDDFF ∧
    0xE000 ≤ (0xE000 : Addr).toNat ∧ (0xFDFF : Addr).toNat ≤ 0xFDFF ∧
    0xFE00 ≤ (0xFE00 : Addr).toNat ∧ (0xFE9F : Addr).toNat ≤ 0xFE9F ∧
    0xFEA0 ≤ (0xFEA0 : Addr).toNat ∧ (0xFEFF : Addr).toNat ≤ 0xFEFF ∧ (0xFFFF : Addr).toNat = 0xFFFF ∧
    0xFF80 ≤ (0xFF80 : Addr).toNat ∧ (0xFFFE : Addr).toNat ≤ 0xFFFE := by decide

/-- NoCartridgeReadsZeroAndDiscards: the bios mapped and unmapped, and the RAM window. -/
theorem test_witness_nocart :
    cfgN.cart = .none ∧ (if cfgN.biosEnabled then 0x0100 else 0x0000) ≤ (0x0100 : Addr).toNat ∧
    (if cfgNOff.biosEnabled then 0x0100 else 0x0000) ≤ (0x0000 : Addr).toNat ∧ (0x7FFF : Addr).toNat ≤ 0x7FFF ∧
    0xA000 ≤ (0xA000 : Addr).toNat ∧ (0xBFFF : Addr).toNat ≤ 0xBFFF := by decide

/-- SwitchableRomBankReads, CartridgeRamReads, CartridgeRamWrites: legal registers, and no RAM. -/
theorem test_witness_legal_registers : (mbc true true 31 3 true).regsLegal = true ∧
    (mbc false false 1 2 false).regsLegal = true ∧ (mbc false false 1 2 false).hasRam = false := by decide

/-- The MBC1 result statements, the frames of the register writes, and the statements of 41 §6 and 70 §3. -/
theorem test_witness_mbc1 :
    cfgA.cart = .mbc1 (mbc true false 1 0 false) ∧ cfgAOff.cart = .mbc1 (mbc true false 1 0 false) ∧
    (if cfgA.biosEnabled then 0x0100 else 0x0000) ≤ (0x0100 : Addr).toNat ∧
    (if cfgAOff.biosEnabled then 0x0100 else 0x0000) ≤ (0x0000 : Addr).toNat ∧
    (0x1FFF : Addr).toNat ≤ 0x1FFF ∧ 0x2000 ≤ (0x2000 : Addr).toNat ∧ (0x3FFF : Addr).toNat ≤ 0x3FFF ∧
    0x4000 ≤ (0x4000 : Addr).toNat ∧ (0x5FFF : Addr).toNat ≤ 0x5FFF ∧ 0x6000 ≤ (0x6000 : Addr).toNat ∧
    (0x7FFF : Addr).toNat ≤ 0x7FFF ∧ 0xA000 ≤ (0xA000 : Addr).toNat ∧ (0xBFFF : Addr).toNat ≤ 0xBFFF := by decide

/-- IoStubsReadOnesAndIgnoreWrites: both ends, and both sides of the latch. -/
theorem test_witness_io :
    0xFF00 ≤ (0xFF00 : Addr).toNat ∧ (0xFF7F : Addr).toNat ≤ 0xFF7F ∧ (0xFF4F : Addr).toNat ≠ 0xFF50 ∧
    (0xFF51 : Addr).toNat ≠ 0xFF50 := by decide

/-- FrameOfReads, FrameOfDiscardedWrites. -/
theorem test_witness_frame_reads : (encode (.rdRomx 0x4000)).isWrite = false ∧
    ∃ t, exec (.rdRomx 0x4000) cfgA = .next t ∧ t.fault = cfgA.fault := ⟨by decide, _, rfl, by decide⟩
theorem test_witness_frame_discarded : Instr.wrNocart 0x2000 0x05 ∈
    [Instr.wrBios 0x2000 0x05, .wrUnmapped 0x2000 0x05, .wrNocart 0x2000 0x05, .wrIoStub 0x2000 0x05] ∧
    ∃ t, exec (.wrNocart 0x2000 0x05) cfgN = .next t := ⟨by decide, _, rfl⟩

/-- FrameOfStores: a store, and a cartridge RAM write that stores nothing. -/
theorem test_witness_frame_stores : Instr.wrXram 0xA000 0x5A ∈
    [Instr.wrVram 0xA000 0x5A, .wrWram 0xA000 0x5A, .wrEcho 0xA000 0x5A, .wrOam 0xA000 0x5A, .wrHram 0xA000 0x5A,
      .wrXram 0xA000 0x5A] ∧
    (∃ t, exec (.wrXram 0xA000 0x5A) (regsA true 1 3 true) = .next t ∧ t.fault = none) ∧
    opCell (regsA true 1 3 true) (.wrXram 0xA000 0x5A) = some ⟨.ramBank 3, 0⟩ ∧
    (Cell.mk (.ramBank 0) 0).valid = true ∧ (Cell.mk (.ramBank 0) 0) ≠ ⟨.ramBank 3, 0⟩ ∧
    opCell cfgAOff (.wrXram 0xA000 0x5A) = none ∧ ∃ t, exec (.wrXram 0xA000 0x5A) cfgAOff = .next t :=
  ⟨by decide, ⟨_, rfl, by decide⟩, by decide, by decide, by decide, by decide, _, rfl⟩

/-- FrameOfRegisterWrites. -/
theorem test_witness_frame_registers : (∃ t, exec (.wrRamen 0x0100 0x0A) cfgA = .next t) ∧
    (∃ t, exec (.wrRomb 0x2000 0x05) cfgA = .next t) ∧ (∃ t, exec (.wrBankset 0x4000 0x03) cfgA = .next t) ∧
    (∃ t, exec (.wrMode 0x6000 0x01) cfgA = .next t) ∧ ∃ t, exec (.wrIoBoot 0x01) cfgA = .next t :=
  ⟨⟨_, rfl⟩, ⟨_, rfl⟩, ⟨_, rfl⟩, ⟨_, rfl⟩, _, rfl⟩

/-- StepKeepsLegal, NoTransactionFaults, ConfigurationNeverChanges. -/
theorem test_witness_legal : ({ cfgA with pending := [.write 0x2000 0x05] } : State).legal = true ∧ cfgA.running ∧
    (Transaction.read 0x0000).isWrite = false ∧ cfgA.cart = .mbc1 (mbc true false 1 0 false) ∧
    ∃ t, step { cfgA with pending := [.write 0x2000 0x05] } = .next t :=
  ⟨by decide, rfl, rfl, rfl, _, rfl⟩

/-- NoRunFromConstructionFaults, EveryRunFromConstructionIsLegal, ConstructionChecksTheBiosSize, ConstructionValues:
a cartridge with two RAM banks filled and two left to `cartRamInit`. -/
theorem test_witness_construction :
    (LoadedCart.mbc1 romBytes [[(0, 0xC0)], [(0, 0xC1)]] true).fits = true ∧
    (InitRam.mk [(0, 0x99)] [] [] [] [(0x4000, 0xC2)]).fits = true ∧ (List.replicate 256 (0 : Byte)).length = 256 ∧
    (List.replicate 255 (0 : Byte)).length ≠ 256 ∧ (0x00FF : Addr).toNat < (List.replicate 256 (0 : Byte)).length ∧
    (0x00FF : Addr).toNat ≤ 0x00FF ∧ 0x1FFF < 0x2000 ∧
    ([[(0, 0xC0)], [(0, 0xC1)]] : List Memory).all (fun m => Memory.within m 0x2000) = true := by
  simp only [List.length_replicate]
  decide

theorem test_witness_construct_runs : ∃ s t,
    construct (List.replicate 256 0) (.mbc1 romBytes [[(0, 0xC0)], [(0, 0xC1)]] true)
      ⟨[(0, 0x99)], [], [], [], [(0x4000, 0xC2)]⟩ = .ok s ∧
    Host.Core.run core 1 { s with pending := [.read 0x4000] } = .next t :=
  ⟨_, _, if_neg (by simp only [List.length_replicate]; decide), rfl⟩

/-- CellsAreConsistent, RepeatedWriteIsIdempotent. -/
theorem test_witness_cells : txCell (regsA true 5 2 true) (.read 0xA000) = some ⟨.ramBank 2, 0⟩ ∧
    txCell (regsA true 5 2 true) (.write 0xA000 0x12) = some ⟨.ramBank 2, 0⟩ ∧ (Cell.mk .vram 0).valid = true ∧
    txCell (regsA true 5 2 true) (.write 0xA000 0x12) ≠ some ⟨.vram, 0⟩ ∧
    ∃ t, transact (.write 0xA000 0x12) (regsA true 5 2 true) = .next t :=
  ⟨by decide, by decide, by decide, by decide, _, rfl⟩

/-- EachRegisterHasOneWriter: each register's own write changes it. -/
theorem test_witness_writers :
    (after cfgA (.write 0xFF50 0x01)).map State.biosEnabled ≠ some cfgA.biosEnabled ∧
    wrRegs cfgAOff 0x0000 0x0A = some (true, 1, 0, false) ∧ wrRegs cfgAOff 0x2000 0x05 = some (false, 5, 0, false) ∧
    wrRegs cfgAOff 0x4000 0x03 = some (false, 1, 3, false) ∧ wrRegs cfgAOff 0x6000 0x01 = some (false, 1, 0, true) ∧
    (after (regsA true 1 0 false) (.write 0xA000 0x12)).map xram ≠ some ramBytes := by decide

/-- BiosLatchIsMonotone, UnmappingTheBiosExposesTheCartridge. -/
theorem test_witness_latch : cfgAOff.biosEnabled = false ∧
    (∃ t, Host.Core.run core 1 { cfgAOff with pending := [.write 0xFF50 0x00] } = .next t) ∧
    (0x01 : Byte).toNat % 2 = 1 ∧ ∃ t, transact (.write 0xFF50 0x01) cfgA = .next t :=
  ⟨rfl, ⟨_, rfl⟩, by decide, _, rfl⟩

/-- BankSwitchIsSeenByTheNextRead. -/
theorem test_witness_bank_switch : ∃ t, transact (.write 0x2000 0x05) cfgA = .next t := ⟨_, rfl⟩

/-- ReachableRomBanks, CartridgeWithoutRam, ModeSwitchMovesBothWindows, RegistersCannotBeReadBack. -/
theorem test_witness_mbc1_properties :
    (mbc true false 1 3 true).regsLegal = true ∧ (mbc true false 1 3 true).ramMode = true ∧
    (127 : BitVec 7).toNat % 32 ≠ 0 ∧ (mbc false false 1 2 false).regsLegal = true ∧
    (mbc false false 1 2 false).hasRam = false ∧ (mbc true false 5 1 false).hasRam = true ∧
    (0xFF : Byte).toNat % 2 = 1 ∧ (mbc true false 5 1 true).rom = (mbc true true 5 0 false).rom ∧
    (mbc true false 5 1 true).effRomBank = (mbc true true 5 0 false).effRomBank := by decide

end Sys2Proof.Tests
end

/-! PROOFS. What each operation can do, once per operation, and the obligations settled from it. -/

namespace Sys2Proof.Machine

section ReadLaws

/-! ## Each read at an address of its range (R100): the byte that it delivers -/

variable {s : State} {a : Addr}

/-- A read routed to an array by one re-offset delivers the array's byte (R62, R64); the relative address `r` and the
re-offset `n` as numbers. -/
theorem endRead_region {dev : Device} {m : Memory} {x : Address} {base : Addr} {r n k : Nat} (hr : x.rel.toNat = r)
    (hb : base.toNat = n) (h : n ≤ r) (h' : r - n < dev.size) (hk : dev.base + (r - n) = k) :
    endRead s (orFatal (reoffset x base) fun y => arrRead dev m y) = .next (s.deliver (Memory.read m k)) := by
  subst hr hb hk
  rw [regionRead_eq h h', endRead_ok]

theorem exec_rdBios (h : a.toNat ≤ 0x00FF) :
    exec (.rdBios a) s = .next (s.deliver (Memory.read s.bios a.toNat)) := by
  have hlt : (newAddress a).rel.toNat < Device.bios.size := Nat.lt_succ_of_le h
  change endRead s (arrRead .bios s.bios (newAddress a)) = _
  rw [arrRead_of_lt hlt, endRead_ok, newAddress_rel, Device.base, Nat.zero_add]

theorem exec_rdVram (h : 0x8000 ≤ a.toNat) (h' : a.toNat ≤ 0x9FFF) :
    exec (.rdVram a) s = .next (s.deliver (Memory.read s.vram (a.toNat - 0x8000))) :=
  endRead_region (dev := .vram) rfl rfl h (show a.toNat - 0x8000 < 0x2000 by omega) (Nat.zero_add _)

theorem exec_rdWram (h : 0xC000 ≤ a.toNat) (h' : a.toNat ≤ 0xDFFF) :
    exec (.rdWram a) s = .next (s.deliver (Memory.read s.wram (a.toNat - 0xC000))) :=
  endRead_region (dev := .wram) rfl rfl h (show a.toNat - 0xC000 < 0x2000 by omega) (Nat.zero_add _)

theorem exec_rdEcho (h : 0xE000 ≤ a.toNat) (h' : a.toNat ≤ 0xFDFF) :
    exec (.rdEcho a) s = .next (s.deliver (Memory.read s.wram (a.toNat - 0xE000))) :=
  endRead_region (dev := .wram) rfl rfl h (show a.toNat - 0xE000 < 0x2000 by omega) (Nat.zero_add _)

theorem exec_rdOam (h : 0xFE00 ≤ a.toNat) (h' : a.toNat ≤ 0xFE9F) :
    exec (.rdOam a) s = .next (s.deliver (Memory.read s.oam (a.toNat - 0xFE00))) :=
  endRead_region (dev := .oam) rfl rfl h (show a.toNat - 0xFE00 < 0xA0 by omega) (Nat.zero_add _)

theorem exec_rdHram (h : 0xFF80 ≤ a.toNat) (h' : a.toNat ≤ 0xFFFE) :
    exec (.rdHram a) s = .next (s.deliver (Memory.read s.hram (a.toNat - 0xFF80))) :=
  endRead_region (dev := .hram) rfl rfl h (show a.toNat - 0xFF80 < 0x7F by omega) (Nat.zero_add _)

theorem exec_rdUnmapped : exec (.rdUnmapped a) s = .next (s.deliver 0x00) := rfl

/-- R151 in both cartridge windows: below 0x8000 with no re-offset, from 0xA000 on with one (R99). -/
theorem exec_rdNocart (h : a.toNat ≤ 0x7FFF ∨ 0xA000 ≤ a.toNat) :
    exec (.rdNocart a) s = .next (s.deliver 0x00) := by
  change endRead s (orFatal (cartAddress a) nullRead) = _
  rcases h with h | h
  · rw [cartAddress_low h, orFatal_ok, nullRead_eq, endRead_ok]
  · have hle : (0x2000 : Addr).toNat ≤ (newAddress a).rel.toNat := Nat.le_trans (by decide) h
    rw [cartAddress_high h, reoffset_of_le hle, orFatal_ok, nullRead_eq, endRead_ok]

theorem exec_rdRom0 {c : Mbc1} (hc : s.cart = .mbc1 c) (h : a.toNat ≤ 0x3FFF) :
    exec (.rdRom0 a) s = .next (s.deliver (Memory.read c.rom a.toNat)) := by
  have hlt : (newAddress a).rel.toNat < (Device.romBank 0).size := Nat.lt_succ_of_le h
  change endRead s (cartRead s (newAddress a) fun c x => arrRead (.romBank 0) c.rom x) = _
  rw [cartRead_mbc1 _ _ hc, arrRead_of_lt hlt, endRead_ok]
  simp [Device.base]

theorem exec_rdRomx {c : Mbc1} (hc : s.cart = .mbc1 c) (h : 0x4000 ≤ a.toNat) (h' : a.toNat ≤ 0x7FFF) :
    exec (.rdRomx a) s =
      .next (s.deliver (Memory.read c.rom (c.effRomBank.toNat * 0x4000 + (a.toNat - 0x4000)))) := by
  change endRead s (cartRead s (newAddress a) fun c x =>
    orFatal (reoffset x 0x4000) fun y => arrRead (.romBank c.effRomBank) c.rom y) = _
  rw [cartRead_mbc1 _ _ hc]
  exact endRead_region rfl rfl h (show a.toNat - 0x4000 < 0x4000 by omega) rfl

/-- The address that the MBC1 sees in the RAM window after the top level's re-offset (R93, R99). -/
theorem reoffset_xram (h : 0xA000 ≤ a.toNat) :
    reoffset (newAddress a) 0x2000 = .ok ⟨a, a - 0x2000⟩ ∧ (a - 0x2000).toNat = a.toNat - 0x2000 :=
  have hle : (0x2000 : Addr).toNat ≤ a.toNat := Nat.le_trans (by decide) h
  ⟨reoffset_of_le hle, toNat_sub_of_le hle⟩

theorem exec_rdXram {c : Mbc1} (hc : s.cart = .mbc1 c) (h : 0xA000 ≤ a.toNat) (h' : a.toNat ≤ 0xBFFF) :
    exec (.rdXram a) s = .next (s.deliver
      (if c.ramEnable then Memory.read c.ram (c.effRamBank.toNat * 0x2000 + (a.toNat - 0xA000)) else 0x00)) := by
  obtain ⟨hx, hrel⟩ := reoffset_xram h
  change endRead s (orFatal (reoffset (newAddress a) 0x2000) fun x => cartRead s x fun c y =>
    if c.ramEnable then orFatal (reoffset y 0x8000) fun z => arrRead (.ramBank c.effRamBank) c.ram z
    else .ok 0x00) = _
  rw [hx, orFatal_ok, cartRead_mbc1 _ _ hc]
  cases c.ramEnable
  · rfl
  · have hk : a.toNat - 0x2000 - 0x8000 = a.toNat - 0xA000 := by omega
    exact endRead_region hrel rfl (show 0x8000 ≤ a.toNat - 0x2000 by omega)
      (show a.toNat - 0x2000 - 0x8000 < 0x2000 by omega) (congrArg (c.effRamBank.toNat * 0x2000 + ·) hk)

theorem exec_rdIoStub (h : 0xFF00 ≤ a.toNat) (h' : a.toNat ≤ 0xFF7F) :
    exec (.rdIoStub a) s = .next (s.deliver 0xFF) := by
  change endRead s (orFatal (ioAddress a) fun _ => .ok 0xFF) = _
  rw [ioAddress_of h h', orFatal_ok, endRead_ok]

theorem exec_rdIoBoot : exec .rdIoBoot s = .next (s.deliver (biosEnabledByte s.biosEnabled)) := rfl

end ReadLaws
/-! ## The read that a decode gives, and every read whatever its address -/

/-- A decoded read delivers a byte, the same one whatever was read before (R72, R76): row by row of R100. -/
theorem exec_decodeRead (s : State) (a : Addr) :
    ∃ v, ∀ l, exec (decodeRead s.mode a) { s with reads := l } = .next ({ s with reads := l }.deliver v) := by
  refine decodeRead_elim (P := fun i => ∃ v, ∀ l, exec i { s with reads := l } = .next ({ s with reads := l }.deliver v))
    s.mode a ?bios ?nocart ?rom0 ?romx ?vram ?xram ?wram ?echo ?oam ?unmapped ?stub ?boot ?hram
  case bios => exact fun _ h => ⟨Memory.read s.bios a.toNat, fun _ => exec_rdBios h⟩
  case nocart => exact fun _ h => ⟨0x00, fun _ => exec_rdNocart (h.imp And.right And.left)⟩
  case rom0 =>
    intro hk _ h
    obtain ⟨c, hc⟩ := Cart.kind_eq_mbc1.mp hk
    exact ⟨Memory.read c.rom a.toNat, fun _ => exec_rdRom0 hc h⟩
  case romx =>
    intro hk h h'
    obtain ⟨c, hc⟩ := Cart.kind_eq_mbc1.mp hk
    exact ⟨Memory.read c.rom (c.effRomBank.toNat * 0x4000 + (a.toNat - 0x4000)), fun _ => exec_rdRomx hc h h'⟩
  case vram => exact fun h h' => ⟨Memory.read s.vram (a.toNat - 0x8000), fun _ => exec_rdVram h h'⟩
  case xram =>
    intro hk h h'
    obtain ⟨c, hc⟩ := Cart.kind_eq_mbc1.mp hk
    exact ⟨if c.ramEnable then Memory.read c.ram (c.effRamBank.toNat * 0x2000 + (a.toNat - 0xA000)) else 0x00,
      fun _ => exec_rdXram hc h h'⟩
  case wram => exact fun h h' => ⟨Memory.read s.wram (a.toNat - 0xC000), fun _ => exec_rdWram h h'⟩
  case echo => exact fun h h' => ⟨Memory.read s.wram (a.toNat - 0xE000), fun _ => exec_rdEcho h h'⟩
  case oam => exact fun h h' => ⟨Memory.read s.oam (a.toNat - 0xFE00), fun _ => exec_rdOam h h'⟩
  case unmapped => exact fun _ => ⟨0x00, fun _ => exec_rdUnmapped⟩
  case stub => exact fun h h' _ => ⟨0xFF, fun _ => exec_rdIoStub h h'⟩
  case boot => exact fun _ => ⟨biosEnabledByte s.biosEnabled, fun _ => exec_rdIoBoot⟩
  case hram => exact fun h h' => ⟨Memory.read s.hram (a.toNat - 0xFF80), fun _ => exec_rdHram h h'⟩

/-- Every read operation ends as a read: a byte or a fatal, and nothing else (R12, R201). -/
theorem exec_read_eq_endRead {i : Instr} (hi : (encode i).isWrite = false) (s : State) :
    ∃ r, exec i s = endRead s r := by
  cases i with
  | rdBios | rdVram | rdWram | rdEcho | rdOam | rdHram | rdNocart | rdRom0 | rdRomx | rdXram | rdIoStub => exact ⟨_, rfl⟩
  | rdUnmapped => exact ⟨.ok 0x00, rfl⟩
  | rdIoBoot => exact ⟨.ok _, exec_rdIoBoot⟩
  | wrBios | wrVram | wrWram | wrEcho | wrOam | wrUnmapped | wrHram | wrNocart | wrRamen | wrRomb | wrBankset | wrMode
  | wrXram | wrIoStub | wrIoBoot => cases hi

/-- What any read operation can do: deliver a byte, or take a fatal. -/
theorem exec_read_cases {i : Instr} {s t : State} (hi : (encode i).isWrite = false) (h : exec i s = .next t) :
    (∃ v, t = s.deliver v) ∨ ∃ f, t = s.enterFatal f := by
  obtain ⟨r, hr⟩ := exec_read_eq_endRead hi s
  rcases endRead_cases (hr ▸ h) with ⟨v, -, ht⟩ | ⟨f, -, ht⟩
  · exact .inl ⟨v, ht⟩
  · exact .inr ⟨f, ht⟩

/-! ## What any operation can do -/

/-- What an operation `i` can leave of a state, from any address: a fatal's record, a read's byte, nothing, or the one
change that its rule names (R124 to R137, R151 to R165, R191 to R194). -/
inductive Effect (s : State) : Instr → State → Prop
  | fatal {i : Instr} (f : Fatal) : Effect s i (s.enterFatal f)
  | delivered {i : Instr} (hi : (encode i).isWrite = false) (v : Byte) : Effect s i (s.deliver v)
  | discarded {i : Instr} (hi : (encode i).isWrite = true) : Effect s i s
  | vram {a : Addr} {d : Byte} (h : (a - 0x8000).toNat < Config.vramSize) :
    Effect s (.wrVram a d) { s with vram := Memory.write s.vram (a - 0x8000).toNat d }
  | wram {a : Addr} {d : Byte} (h : (a - 0xC000).toNat < Config.wramSize) :
    Effect s (.wrWram a d) { s with wram := Memory.write s.wram (a - 0xC000).toNat d }
  | echo {a : Addr} {d : Byte} (h : (a - 0xE000).toNat < Config.wramSize) :
    Effect s (.wrEcho a d) { s with wram := Memory.write s.wram (a - 0xE000).toNat d }
  | oam {a : Addr} {d : Byte} (h : (a - 0xFE00).toNat < Config.oamSize) :
    Effect s (.wrOam a d) { s with oam := Memory.write s.oam (a - 0xFE00).toNat d }
  | hram {a : Addr} {d : Byte} (h : (a - 0xFF80).toNat < Config.hramSize) :
    Effect s (.wrHram a d) { s with hram := Memory.write s.hram (a - 0xFF80).toNat d }
  | ramen {a : Addr} {d : Byte} {c : Mbc1} (hc : s.cart = .mbc1 c) :
    Effect s (.wrRamen a d) { s with cart := .mbc1 { c with ramEnable := ramEnableAfter c.hasRam d } }
  | romb {a : Addr} {d : Byte} {c : Mbc1} (hc : s.cart = .mbc1 c) :
    Effect s (.wrRomb a d) { s with cart := .mbc1 { c with romBank := romBankField d } }
  | bankset {a : Addr} {d : Byte} {c : Mbc1} (hc : s.cart = .mbc1 c) :
    Effect s (.wrBankset a d) { s with cart := .mbc1 { c with bankSet := bankSetField d } }
  | mode {a : Addr} {d : Byte} {c : Mbc1} (hc : s.cart = .mbc1 c) :
    Effect s (.wrMode a d) { s with cart := .mbc1 { c with ramMode := ramModeAfter c.hasRam d } }
  | xram {a : Addr} {d : Byte} {c : Mbc1} (hc : s.cart = .mbc1 c) (gate : (c.hasRam && c.ramEnable) = true)
    (h : (a - 0xA000).toNat < Config.ramBankSize) :
    Effect s (.wrXram a d) { s with cart := .mbc1 { c with
      ram := Memory.write c.ram (c.effRamBank.toNat * Config.ramBankSize + (a - 0xA000).toNat) d } }
  | boot {d : Byte} : Effect s (.wrIoBoot d) { s with biosEnabled := biosEnabledAfter s.biosEnabled d }

section WriteCases

variable {s t : State}

/-- A re-offset that passes subtracts (R62). -/
theorem reoffset_eq_ok {x y : Address} {shift : Addr} (h : reoffset x shift = .ok y) : y = ⟨x.raw, x.rel - shift⟩ := by
  by_cases hle : shift.toNat ≤ x.rel.toNat
  · rw [reoffset_of_le hle] at h
    exact (Except.ok.inj h).symm
  · rw [reoffset_of_lt (by omega)] at h
    cases h

/-- A write that only checks its address leaves the state or takes a fatal. -/
theorem endWrite_discard {α : Type} {r : Except Fatal α} (h : endWrite s (orFatal r fun _ => .ok s) = .next t) :
    t = s ∨ ∃ f, t = s.enterFatal f := by
  rcases endWrite_cases h with h | ⟨f, -, h⟩
  · obtain ⟨_, -, hx⟩ := orFatal_eq_ok.mp h
    exact .inl (Except.ok.inj hx).symm
  · exact .inr ⟨f, h⟩

/-- A region's write stores inside its array, or takes a fatal. -/
theorem endWrite_region {dev : Device} {m : Memory} {base a : Addr} {d : Byte} {upd : Memory → State}
    (h : endWrite s (orFatal (reoffset (newAddress a) base) fun x =>
      orFatal (arrWrite dev m x d) fun m' => .ok (upd m')) = .next t) :
    ((a - base).toNat < dev.size ∧ t = upd (Memory.write m (dev.base + (a - base).toNat) d)) ∨
      ∃ f, t = s.enterFatal f := by
  rcases endWrite_cases h with h | ⟨f, -, h⟩
  · obtain ⟨x, hx, h⟩ := orFatal_eq_ok.mp h
    obtain ⟨m', hm, h⟩ := orFatal_eq_ok.mp h
    obtain ⟨hlt, rfl⟩ := arrWrite_eq_ok hm
    rw [reoffset_eq_ok hx] at hlt h
    exact .inl ⟨hlt, (Except.ok.inj h).symm⟩
  · exact .inr ⟨f, h⟩

/-- A cartridge write leaves the state, takes a fatal, or changes the controller. -/
theorem endWrite_cart {x : Address} {k : Mbc1 → Address → Except Fatal Mbc1}
    (h : endWrite s (cartWrite s x k) = .next t) :
    t = s ∨ (∃ f, t = s.enterFatal f) ∨
      ∃ c c', s.cart = .mbc1 c ∧ k c x = .ok c' ∧ t = { s with cart := .mbc1 c' } := by
  rcases endWrite_cases h with h | ⟨f, -, h⟩
  · rcases cartWrite_eq_ok h with ⟨-, h⟩ | h
    · exact .inl h
    · exact .inr (.inr h)
  · exact .inr (.inl ⟨f, h⟩)

/-- A plain array's write, its bytes standing at the start of its store (R79): the effect of each is one update. -/
theorem effect_of_endWrite_region {i : Instr} {dev : Device} {m : Memory} {base a : Addr} {d : Byte}
    {upd : Memory → State} (hbase : dev.base = 0)
    (hupd : (a - base).toNat < dev.size → Effect s i (upd (Memory.write m (a - base).toNat d)))
    (h : endWrite s (orFatal (reoffset (newAddress a) base) fun x =>
      orFatal (arrWrite dev m x d) fun m' => .ok (upd m')) = .next t) : Effect s i t := by
  rcases endWrite_region h with ⟨hlt, rfl⟩ | ⟨f, rfl⟩
  · rw [hbase, Nat.zero_add]
    exact hupd hlt
  · exact .fatal f

/-- A register's write: the effect is its update of the controller. -/
theorem effect_of_endWrite_cart {i : Instr} {x : Address} {upd : Mbc1 → Mbc1} (hi : (encode i).isWrite = true)
    (hupd : ∀ c, s.cart = .mbc1 c → Effect s i { s with cart := .mbc1 (upd c) })
    (h : endWrite s (cartWrite s x fun c _ => .ok (upd c)) = .next t) : Effect s i t := by
  rcases endWrite_cart h with rfl | ⟨f, rfl⟩ | ⟨c, c', hc, hk, rfl⟩
  · exact .discarded hi
  · exact .fatal f
  · cases hk
    exact hupd c hc

/-- A write that only checks its address. -/
theorem effect_of_endWrite_discard {i : Instr} {α : Type} {r : Except Fatal α} (hi : (encode i).isWrite = true)
    (h : endWrite s (orFatal r fun _ => .ok s) = .next t) : Effect s i t := by
  rcases endWrite_discard h with rfl | ⟨f, rfl⟩
  · exact .discarded hi
  · exact .fatal f

/-- What the controller is after WR_XRAM's own rule (R165). -/
theorem xramWrite_eq_ok {c c' : Mbc1} {y : Address} {d : Byte}
    (h : (if c.hasRam && c.ramEnable then
      orFatal (reoffset y 0x8000) fun z => orFatal (arrWrite (.ramBank c.effRamBank) c.ram z d) fun m =>
        .ok { c with ram := m }
      else .ok c) = .ok c') :
    c' = c ∨ (c.hasRam && c.ramEnable) = true ∧ (y.rel - 0x8000).toNat < Config.ramBankSize ∧
      c' = { c with ram :=
        Memory.write c.ram (c.effRamBank.toNat * Config.ramBankSize + (y.rel - 0x8000).toNat) d } := by
  by_cases gate : (c.hasRam && c.ramEnable) = true
  · rw [if_pos gate] at h
    obtain ⟨z, hz, h⟩ := orFatal_eq_ok.mp h
    obtain ⟨m, hm, h⟩ := orFatal_eq_ok.mp h
    obtain ⟨hlt, rfl⟩ := arrWrite_eq_ok hm
    rw [reoffset_eq_ok hz] at hlt h
    exact .inr ⟨gate, hlt, (Except.ok.inj h).symm⟩
  · rw [if_neg gate] at h
    exact .inl (Except.ok.inj h).symm

/-- WR_XRAM, its two re-offsets together those of 0xA000 (R166). -/
theorem effect_of_wrXram {a : Addr} {d : Byte} (h : exec (.wrXram a d) s = .next t) : Effect s (.wrXram a d) t := by
  rcases endWrite_cases h with h | ⟨f, -, rfl⟩
  · obtain ⟨x, hx, h⟩ := orFatal_eq_ok.mp h
    obtain rfl := reoffset_eq_ok hx
    have hoff : a - 0x2000 - 0x8000 = a - 0xA000 := by rw [BitVec.sub_sub]; rfl
    rcases cartWrite_eq_ok h with ⟨-, rfl⟩ | ⟨c, c', hc, hk, rfl⟩
    · exact .discarded rfl
    · rcases xramWrite_eq_ok hk with rfl | ⟨gate, hlt, rfl⟩
      · rw [← hc]
        exact .discarded rfl
      · rw [newAddress_rel, hoff] at hlt ⊢
        exact .xram hc gate hlt
  · exact .fatal f

end WriteCases

/-- What every operation can do, in every state and from every address. -/
theorem exec_effect {i : Instr} {s t : State} (h : exec i s = .next t) : Effect s i t := by
  cases i with
  | rdBios | rdVram | rdWram | rdEcho | rdOam | rdUnmapped | rdHram | rdNocart | rdRom0 | rdRomx | rdXram | rdIoStub
  | rdIoBoot =>
    rcases exec_read_cases rfl h with ⟨v, rfl⟩ | ⟨f, rfl⟩
    · exact .delivered rfl v
    · exact .fatal f
  | wrBios | wrIoStub => exact effect_of_endWrite_discard rfl h
  | wrNocart a d =>
    change endWrite s (orFatal (cartAddress a) fun x => nullWrite x s) = .next t at h
    simp only [nullWrite_eq] at h
    exact effect_of_endWrite_discard rfl h
  | wrUnmapped => cases h; exact .discarded rfl
  | wrVram => exact effect_of_endWrite_region (dev := .vram) rfl .vram h
  | wrWram => exact effect_of_endWrite_region (dev := .wram) rfl .wram h
  | wrEcho => exact effect_of_endWrite_region (dev := .wram) rfl .echo h
  | wrOam => exact effect_of_endWrite_region (dev := .oam) rfl .oam h
  | wrHram => exact effect_of_endWrite_region (dev := .hram) rfl .hram h
  | wrRamen => exact effect_of_endWrite_cart rfl (fun _ => .ramen) h
  | wrRomb => exact effect_of_endWrite_cart rfl (fun _ => .romb) h
  | wrBankset => exact effect_of_endWrite_cart rfl (fun _ => .bankset) h
  | wrMode => exact effect_of_endWrite_cart rfl (fun _ => .mode) h
  | wrXram => exact effect_of_wrXram h
  | wrIoBoot => cases h; exact .boot

/-! ## What keeps a state legal (R32) -/

/-- The register invariants of R32, as propositions. -/
theorem Mbc1.regsLegal_iff {c : Mbc1} :
    c.regsLegal = true ↔
      c.romBank ≠ 0 ∧ (c.ramEnable = true → c.hasRam = true) ∧ (c.ramMode = true → c.hasRam = true) := by
  cases he : c.ramEnable <;> cases hm : c.ramMode <;> simp [Mbc1.regsLegal, he, hm]

/-- A legal controller: R32 and its two stores. -/
theorem Cart.legal_mbc1_iff {c : Mbc1} :
    (Cart.mbc1 c).legal = true ↔ c.regsLegal = true ∧ Memory.fits c.rom (128 * Config.romBankSize) = true ∧
      Memory.fits c.ram (4 * Config.ramBankSize) = true := by
  simp [Cart.legal, Mbc1.storesFit]

theorem State.legal_iff {s : State} :
    s.legal = true ↔ s.cart.legal = true ∧ Memory.fits s.bios Config.biosSize = true ∧
      Memory.fits s.vram Config.vramSize = true ∧ Memory.fits s.wram Config.wramSize = true ∧
      Memory.fits s.oam Config.oamSize = true ∧ Memory.fits s.hram Config.hramSize = true := by
  simp [State.legal, and_assoc]

/-- No value of D leaves the ROM bank register 0 (R162). -/
theorem romBankField_ne_zero (d : Byte) : romBankField d ≠ 0 := by
  unfold romBankField
  split
  · decide
  · assumption

theorem ramEnableAfter_hasRam {hasRam : Bool} {d : Byte} (h : ramEnableAfter hasRam d = true) : hasRam = true :=
  (Bool.and_eq_true_iff.mp h).1

theorem ramModeAfter_hasRam {hasRam : Bool} {d : Byte} (h : ramModeAfter hasRam d = true) : hasRam = true :=
  (Bool.and_eq_true_iff.mp h).1

/-- A bank's byte stands inside the four banks of cartridge RAM (R26, R79). -/
theorem ramBank_offset_lt (b : BitVec 2) {k : Nat} (h : k < Config.ramBankSize) :
    b.toNat * Config.ramBankSize + k < 4 * Config.ramBankSize := by
  have hb := b.isLt
  simp only [Config.ramBankSize] at h ⊢
  omega

/-- Every operation keeps the register invariants, and every store canonical and inside its size (R32, R168). -/
theorem Effect.keeps_legal {i : Instr} {s t : State} (he : Effect s i t) (hs : s.legal = true) : t.legal = true := by
  obtain ⟨hcart, hbios, hvram, hwram, hoam, hhram⟩ := State.legal_iff.mp hs
  have ofCart {c : Mbc1} (hc : s.cart = .mbc1 c) := Cart.legal_mbc1_iff.mp (hc ▸ hcart)
  have setCart {c' : Mbc1} (hc' : (Cart.mbc1 c').legal = true) : { s with cart := .mbc1 c' }.legal = true :=
    State.legal_iff.mpr ⟨hc', hbios, hvram, hwram, hoam, hhram⟩
  cases he with
  | fatal | delivered | discarded | boot => exact hs
  | vram h => exact State.legal_iff.mpr ⟨hcart, hbios, Memory.fits_write _ h hvram, hwram, hoam, hhram⟩
  | wram h | echo h => exact State.legal_iff.mpr ⟨hcart, hbios, hvram, Memory.fits_write _ h hwram, hoam, hhram⟩
  | oam h => exact State.legal_iff.mpr ⟨hcart, hbios, hvram, hwram, Memory.fits_write _ h hoam, hhram⟩
  | hram h => exact State.legal_iff.mpr ⟨hcart, hbios, hvram, hwram, hoam, Memory.fits_write _ h hhram⟩
  | ramen hc =>
    obtain ⟨hregs, hstores⟩ := ofCart hc
    obtain ⟨hrom, -, hmode⟩ := Mbc1.regsLegal_iff.mp hregs
    exact setCart (Cart.legal_mbc1_iff.mpr ⟨Mbc1.regsLegal_iff.mpr ⟨hrom, ramEnableAfter_hasRam, hmode⟩, hstores⟩)
  | romb hc =>
    obtain ⟨hregs, hstores⟩ := ofCart hc
    obtain ⟨-, hrest⟩ := Mbc1.regsLegal_iff.mp hregs
    exact setCart (Cart.legal_mbc1_iff.mpr ⟨Mbc1.regsLegal_iff.mpr ⟨romBankField_ne_zero _, hrest⟩, hstores⟩)
  | bankset hc =>
    obtain ⟨hregs, hstores⟩ := ofCart hc
    exact setCart (Cart.legal_mbc1_iff.mpr ⟨hregs, hstores⟩)
  | mode hc =>
    obtain ⟨hregs, hstores⟩ := ofCart hc
    obtain ⟨hrom, hen, -⟩ := Mbc1.regsLegal_iff.mp hregs
    exact setCart (Cart.legal_mbc1_iff.mpr ⟨Mbc1.regsLegal_iff.mpr ⟨hrom, hen, ramModeAfter_hasRam⟩, hstores⟩)
  | xram hc _ h =>
    obtain ⟨hregs, hrom, hram⟩ := ofCart hc
    exact setCart (Cart.legal_mbc1_iff.mpr ⟨hregs, hrom, Memory.fits_write _ (ramBank_offset_lt _ h) hram⟩)

/-! ## The step -/

section Step

variable {s t : State}

theorem step_idle (hf : s.fault = none) (hp : s.pending = []) : step s = .next s := by
  rw [step, hf, hp]

theorem step_halted {f : Fatal} (hf : s.fault = some f) : step s = .fault (.halted f) := by
  rw [step, hf]

theorem step_transact {x : Transaction} {rest : List Transaction} (hf : s.fault = none) (hp : s.pending = x :: rest) :
    step s = transact x { s with pending := rest } := by
  rw [step, hf, hp]

/-- A block that steps has not halted (R39). -/
theorem fault_eq_none_of_step (h : step s = .next t) : s.fault = none := by
  cases hf : s.fault with
  | none => rfl
  | some f => rw [step_halted hf] at h; cases h

/-- A step that answers a next state is idle, or is the effect of the operation decoded (R70, R71). -/
theorem step_cases (h : step s = .next t) :
    (s.pending = [] ∧ t = s) ∨
      ∃ x rest, s.pending = x :: rest ∧ Effect { s with pending := rest } (decode s.mode x) t := by
  have hf := fault_eq_none_of_step h
  cases hp : s.pending with
  | nil =>
    rw [step_idle hf hp] at h
    cases h
    exact .inl ⟨rfl, rfl⟩
  | cons x rest =>
    rw [step_transact hf hp, transact_eq] at h
    exact .inr ⟨x, rest, rfl, exec_effect h⟩

/-- Every step keeps a legal state legal (R32, R168). -/
theorem step_keeps_legal (hs : s.legal = true) (h : step s = .next t) : t.legal = true := by
  rcases step_cases h with ⟨-, rfl⟩ | ⟨x, rest, -, he⟩
  · exact hs
  · exact he.keeps_legal hs

end Step

/-! ## Construction (R230) -/

section Construction

variable {image : List Byte} {cart : LoadedCart} {init : InitRam} {s : State}

/-- What a construction that succeeds leaves, and the only length that it accepts (R46, R231). -/
theorem construct_eq_ok (h : construct image cart init = .ok s) :
    image.length = Config.biosSize ∧ s.bios = Memory.ofBytes image ∧ s.cart = cart.toCart init ∧
      s.vram = init.vram ∧ s.wram = init.wram ∧ s.oam = init.oam ∧ s.hram = init.hram ∧
      s.biosEnabled = true ∧ s.fault = none := by
  unfold construct at h
  split at h
  · cases h
  next hl =>
    cases h
    exact ⟨not_not.mp hl, rfl, rfl, rfl, rfl, rfl, rfl, rfl, rfl⟩

/-- The registers that construction gives meet R32 whatever `has_ram` is (R46). -/
theorem Mbc1.constructed_regsLegal (rom ram : Memory) (hasRam : Bool) :
    (Mbc1.constructed rom ram hasRam).regsLegal = true :=
  Mbc1.regsLegal_iff.mpr ⟨show (1 : BitVec 5) ≠ 0 by decide, nofun, nofun⟩

/-- A fitting loader and initial content make a legal cartridge. -/
theorem LoadedCart.toCart_legal (hc : cart.fits = true) (hi : Memory.fits init.cartRam (4 * Config.ramBankSize) = true) :
    (cart.toCart init).legal = true := by
  cases cart with
  | none => rfl
  | mbc1 rom banks hasRam =>
    simp only [LoadedCart.fits, Bool.and_eq_true, decide_eq_true_eq, List.all_eq_true] at hc
    obtain ⟨⟨hrom, hlen⟩, hbanks⟩ := hc
    exact Cart.legal_mbc1_iff.mpr ⟨Mbc1.constructed_regsLegal _ _ _, hrom, loadedRam_fits hbanks hlen hi⟩

/-- A construction from fitting parameters is legal (R32, R46). -/
theorem construct_legal (hc : cart.fits = true) (hi : init.fits = true) (h : construct image cart init = .ok s) :
    s.legal = true := by
  obtain ⟨hlen, hbios, hcart, hvram, hwram, hoam, hhram, -, -⟩ := construct_eq_ok h
  simp only [InitRam.fits, Bool.and_eq_true] at hi
  obtain ⟨⟨⟨⟨hiv, hiw⟩, hio⟩, hih⟩, hic⟩ := hi
  rw [State.legal_iff, hbios, hcart, hvram, hwram, hoam, hhram, ← hlen]
  exact ⟨LoadedCart.toCart_legal hc hic, Memory.fits_ofBytes image, hiv, hiw, hio, hih⟩

/-- Right after a construction a read below 0x0100 delivers the image's byte (R124, R230). -/
theorem construct_reads_image (h : construct image cart init = .ok s) {a : Addr} (ha : a.toNat < image.length)
    (hlow : a.toNat ≤ 0x00FF) : transact (.read a) s = .next (s.deliver image[a.toNat]) := by
  obtain ⟨-, hbios, -, -, -, -, -, hen, -⟩ := construct_eq_ok h
  rw [transact_eq, decode, decodeRead_bios hen hlow, exec_rdBios hlow, hbios, Memory.read_ofBytes image _ ha]

end Construction

/-! ## The obligations -/

/-- Settles O9: the two branches of `step` that run no transaction. -/
theorem stepIdleHoldsAndHaltedStops : Obligations.StepIdleHoldsAndHaltedStops :=
  ⟨fun _ => step_idle, fun _ _ => step_halted⟩

/-- Settles O36: a read delivers a byte or takes a fatal, and neither touches a register, a flag or a cell. -/
theorem frameOfReads : Obligations.FrameOfReads := by
  intro i s t hi h
  rcases exec_read_cases hi h with ⟨v, rfl⟩ | ⟨f, rfl⟩
  · exact ⟨rfl, rfl, rfl, State.deliver_cell s v, .inl ⟨rfl, v, rfl⟩⟩
  · exact ⟨rfl, rfl, rfl, State.enterFatal_cell s f, .inr ⟨rfl, f, rfl⟩⟩

/-- Settles O47: the byte of a decoded read does not depend on the read results before it. -/
theorem readsHaveNoSideEffects : Obligations.ReadsHaveNoSideEffects := by
  intro s a
  obtain ⟨v, hv⟩ := exec_decodeRead s a
  exact ⟨v, (transact_eq _ _).trans (hv s.reads), (transact_eq _ _).trans (hv (s.reads ++ [v]))⟩

/-- Settles O44: a fitting construction is legal, and every step keeps a legal state legal. -/
theorem everyRunFromConstructionIsLegal : Obligations.EveryRunFromConstructionIsLegal := by
  intro image cart init s t ts k hc hi hs hrun
  have hs' : s.legal = true := construct_legal hc hi hs
  have hstart : { s with pending := ts }.legal = true := hs'
  exact coreRun_invariant core (P := fun u : State => u.legal = true) (fun _ _ => step_keeps_legal) hstart hrun

/-- Settles O60: the fields from `construct_eq_ok`, the bios through RD_BIOS, the RAM banks from `loadedRam_read`. -/
theorem constructionValues : Obligations.ConstructionValues := by
  intro image cart init s h
  obtain ⟨-, -, hcart, hvram, hwram, hoam, hhram, hen, hf⟩ := construct_eq_ok h
  refine ⟨fun a ha => construct_reads_image h ha, hvram, hwram, hoam, hhram, hen, hf, ?nocart, ?mbc1⟩
  case nocart =>
    rintro rfl
    exact hcart
  case mbc1 =>
    rintro rom banks hasRam rfl
    refine ⟨_, hcart, rfl, rfl, rfl, rfl, rfl, rfl, fun b o ho hbanks => ?_⟩
    exact loadedRam_read (List.all_eq_true.mp hbanks) ho

end Sys2Proof.Machine

/-! PROOFS. The frame of the register writes, what no step changes, and what a read below 0x8000 depends on. -/

namespace Sys2Proof.Machine

section RegisterWrites

/-! ## Each register write with an MBC1 present, from any address: the one register that it changes -/

variable {s : State} {c : Mbc1} {a : Addr} {d : Byte}

/-- A cartridge write whose rule makes no check updates the controller (R98). -/
theorem endWrite_cart_mbc1 (hc : s.cart = .mbc1 c) (x : Address) (upd : Mbc1 → Mbc1) :
    endWrite s (cartWrite s x fun c _ => .ok (upd c)) = .next { s with cart := .mbc1 (upd c) } := by
  rw [cartWrite_mbc1 _ _ hc, orFatal_ok, endWrite_ok]

theorem exec_wrRamen (hc : s.cart = .mbc1 c) :
    exec (.wrRamen a d) s = .next { s with cart := .mbc1 { c with ramEnable := ramEnableAfter c.hasRam d } } :=
  endWrite_cart_mbc1 hc _ _

theorem exec_wrRomb (hc : s.cart = .mbc1 c) :
    exec (.wrRomb a d) s = .next { s with cart := .mbc1 { c with romBank := romBankField d } } :=
  endWrite_cart_mbc1 hc _ _

theorem exec_wrBankset (hc : s.cart = .mbc1 c) :
    exec (.wrBankset a d) s = .next { s with cart := .mbc1 { c with bankSet := bankSetField d } } :=
  endWrite_cart_mbc1 hc _ _

theorem exec_wrMode (hc : s.cart = .mbc1 c) :
    exec (.wrMode a d) s = .next { s with cart := .mbc1 { c with ramMode := ramModeAfter c.hasRam d } } :=
  endWrite_cart_mbc1 hc _ _

theorem exec_wrIoBoot : exec (.wrIoBoot d) s = .next { s with biosEnabled := biosEnabledAfter s.biosEnabled d } := rfl

end RegisterWrites

section Effects

/-! ## What an operation's effect leaves unchanged, and which operation changes each register -/

variable {i : Instr} {s t : State} {c c' : Mbc1}

/-- The bios store is written by nothing (R23). -/
theorem Effect.bios_eq (he : Effect s i t) : t.bios = s.bios := by
  cases he <;> rfl

/-- The cartridge's kind is fixed at construction (R24). -/
theorem Effect.cart_kind_eq (he : Effect s i t) : t.cart.kind = s.cart.kind := by
  cases he with
  | fatal | delivered | discarded | vram | wram | echo | oam | hram | boot => rfl
  | ramen hc | romb hc | bankset hc | mode hc | xram hc => rw [hc, Cart.kind_mbc1, Cart.kind_mbc1]

/-- A controller stays one with its ROM and `has_ram` (R25, R27, R154). -/
theorem Effect.keeps_rom_hasRam (he : Effect s i t) (hc : s.cart = .mbc1 c) :
    ∃ c', t.cart = .mbc1 c' ∧ c'.rom = c.rom ∧ c'.hasRam = c.hasRam := by
  cases he with
  | fatal | delivered | discarded | vram | wram | echo | oam | hram | boot => exact ⟨c, hc, rfl, rfl⟩
  | ramen h | romb h | bankset h | mode h | xram h =>
    cases hc.symm.trans h
    exact ⟨_, rfl, rfl, rfl⟩

/-- WR_IO_BOOT alone changes the latch (R37). -/
theorem Effect.latch_writer (he : Effect s i t) (hne : t.biosEnabled ≠ s.biosEnabled) : ∃ d, i = .wrIoBoot d := by
  cases he with
  | boot => exact ⟨_, rfl⟩
  | fatal | delivered | discarded | vram | wram | echo | oam | hram | ramen | romb | bankset | mode | xram =>
    exact absurd rfl hne

/-- One writer for each register of the controller and for its RAM (R26, R28 to R31). -/
theorem Effect.controller_writers (he : Effect s i t) (hc : s.cart = .mbc1 c) (hc' : t.cart = .mbc1 c') :
    (c'.ramEnable ≠ c.ramEnable → ∃ a d, i = .wrRamen a d) ∧ (c'.romBank ≠ c.romBank → ∃ a d, i = .wrRomb a d) ∧
      (c'.bankSet ≠ c.bankSet → ∃ a d, i = .wrBankset a d) ∧ (c'.ramMode ≠ c.ramMode → ∃ a d, i = .wrMode a d) ∧
      (c'.ram ≠ c.ram → ∃ a d, i = .wrXram a d) := by
  cases he with
  | fatal | delivered | discarded | vram | wram | echo | oam | hram | boot =>
    cases hc.symm.trans hc'
    exact ⟨absurd rfl, absurd rfl, absurd rfl, absurd rfl, absurd rfl⟩
  | ramen h | romb h | bankset h | mode h | xram h =>
    cases hc.symm.trans h
    cases hc'
    -- the written register's clause names this operation; each other clause supposes a change that is none
    simp

/-- No data byte sets the latch again (R194). -/
theorem biosEnabledAfter_false (d : Byte) : biosEnabledAfter false d = false := by
  rw [biosEnabledAfter, ite_self]

/-- A clear latch stays clear (R195). -/
theorem Effect.latch_stays_clear (he : Effect s i t) (hs : s.biosEnabled = false) : t.biosEnabled = false := by
  cases he with
  | boot => exact hs ▸ biosEnabledAfter_false _
  | fatal | delivered | discarded | vram | wram | echo | oam | hram | ramen | romb | bankset | mode | xram => exact hs

/-- A step with a transaction waiting is the effect of the operation that it decodes to. -/
theorem effect_of_step {x : Transaction} {rest : List Transaction} (hp : s.pending = x :: rest)
    (h : step s = .next t) : Effect { s with pending := rest } (decode s.mode x) t := by
  rcases step_cases h with ⟨hnil, -⟩ | ⟨x', rest', hp', he⟩
  · cases hnil.symm.trans hp
  · cases hp.symm.trans hp'
    exact he

/-- A step keeps a clear latch clear. -/
theorem step_latch_stays_clear (hs : s.biosEnabled = false) (h : step s = .next t) : t.biosEnabled = false := by
  rcases step_cases h with ⟨-, rfl⟩ | ⟨x, rest, -, he⟩
  · exact hs
  · exact he.latch_stays_clear hs

end Effects

section LowReads

/-! ## A read below 0x8000 -/

/-- The byte at an address below 0x8000 with an MBC1 present (R124, R158, R159): the bios while it is mapped there, else
bank 0 of the ROM, and bank `bank` from 0x4000 on. -/
def State.lowByte (s : State) (rom : Memory) (bank : BitVec 7) (a : Addr) : Byte :=
  if a.toNat ≤ 0x00FF ∧ s.biosEnabled = true then Memory.read s.bios a.toNat
  else if a.toNat ≤ 0x3FFF then Memory.read rom a.toNat
  else Memory.read rom (bank.toNat * 0x4000 + (a.toNat - 0x4000))

variable {s : State} {c : Mbc1} {a : Addr}

/-- Of the controller, a read below 0x8000 looks at the ROM and the effective bank only. -/
theorem transact_read_low (hc : s.cart = .mbc1 c) (h : a.toNat ≤ 0x7FFF) :
    transact (.read a) s = .next (s.deliver (s.lowByte c.rom c.effRomBank a)) := by
  have hk : s.mode.cart = .mbc1 := Cart.kind_eq_mbc1.mpr ⟨c, hc⟩
  rw [transact_eq, decode, State.lowByte]
  by_cases hb : a.toNat ≤ 0x00FF ∧ s.biosEnabled = true
  · rw [if_pos hb, decodeRead_bios hb.2 hb.1, exec_rdBios hb.1]
  · rw [if_neg hb]
    by_cases h0 : a.toNat ≤ 0x3FFF
    · rw [if_pos h0, decodeRead_rom0 hk hb h0, exec_rdRom0 hc h0]
    · have hx : 0x4000 ≤ a.toNat := by omega
      rw [if_neg h0, decodeRead_romx hk hx h, exec_rdRomx hc hx h]

/-- Up to 0x3FFF the bank is not looked at. -/
theorem State.lowByte_bank_irrel (rom : Memory) (b b' : BitVec 7) (h : a.toNat ≤ 0x3FFF) :
    s.lowByte rom b a = s.lowByte rom b' a := by
  simp only [State.lowByte, if_pos h]

end LowReads

/-! ## The obligations -/

/-- Settles O39: with an MBC1 present each register write answers one state, the one with its register written. -/
theorem frameOfRegisterWrites : Obligations.FrameOfRegisterWrites := by
  intro s t c a d hc
  refine ⟨fun h => ?ramen, fun h => ?romb, fun h => ?bankset, fun h => ?mode, fun h => ?boot⟩
  case ramen => exact ⟨_, Host.Outcome.next.inj (h.symm.trans (exec_wrRamen hc))⟩
  case romb => exact ⟨_, Host.Outcome.next.inj (h.symm.trans (exec_wrRomb hc))⟩
  case bankset => exact ⟨_, Host.Outcome.next.inj (h.symm.trans (exec_wrBankset hc))⟩
  case mode => exact ⟨_, Host.Outcome.next.inj (h.symm.trans (exec_wrMode hc))⟩
  case boot => exact ⟨_, Host.Outcome.next.inj (h.symm.trans exec_wrIoBoot)⟩

/-- Settles O49: the idle step changes nothing, and no operation's effect reaches the configuration. -/
theorem configurationNeverChanges : Obligations.ConfigurationNeverChanges := by
  intro s t h
  rcases step_cases h with ⟨-, rfl⟩ | ⟨x, rest, -, he⟩
  · exact ⟨rfl, rfl, fun c hc => ⟨c, hc, rfl, rfl⟩⟩
  · exact ⟨he.bios_eq, he.cart_kind_eq, fun c hc => he.keeps_rom_hasRam hc⟩

/-- Settles O50: the step is the effect of the decoded operation, and each register has one writer among the effects. -/
theorem eachRegisterHasOneWriter : Obligations.EachRegisterHasOneWriter := by
  intro s t x rest _ hp h
  have he := effect_of_step hp h
  exact ⟨he.latch_writer, fun c c' hc hc' => he.controller_writers hc hc'⟩

/-- Settles O51: a clear latch is an invariant of the step. -/
theorem biosLatchIsMonotone : Obligations.BiosLatchIsMonotone := by
  intro k s t hrun hs
  exact coreRun_invariant core (P := fun u : State => u.biosEnabled = false) (fun _ _ => step_latch_stays_clear) hs hrun

/-- Settles O58: both reads deliver `State.lowByte`, of the same ROM and, where it is looked at, the same bank. -/
theorem registersCannotBeReadBack : Obligations.RegistersCannotBeReadBack := by
  intro s c c' a ha hrom hbank hc
  have hsame : s.lowByte c'.rom c'.effRomBank a = s.lowByte c.rom c.effRomBank a := by
    rw [hrom]
    rcases hbank with hlow | hbank
    · exact State.lowByte_bank_irrel _ _ _ hlow
    · rw [hbank]
  have hread' : transact (.read a) { s with cart := .mbc1 c' } =
      .next ({ s with cart := .mbc1 c' }.deliver (s.lowByte c'.rom c'.effRomBank a)) := transact_read_low rfl ha
  exact ⟨s.lowByte c.rom c.effRomBank a, transact_read_low hc ha, hsame ▸ hread'⟩

end Sys2Proof.Machine

/-! PROOFS. Every write completes, and both transactions are memory: a read answers its cell's byte, a write changes its
cell and no other. -/

namespace Sys2Proof.Machine

section WriteLaws

/-! ## Each write at an address of its range (R100): the state that it leaves -/

variable {s : State} {a : Addr} {d : Byte}

/-- A write routed to an array by one re-offset stores its byte there (R62, R64); the relative address `r` and the
re-offset `n` as numbers. -/
theorem endWrite_region_of_le {dev : Device} {m : Memory} {x : Address} {base : Addr} {upd : Memory → State}
    {r n k : Nat} (hr : x.rel.toNat = r) (hb : base.toNat = n) (h : n ≤ r) (h' : r - n < dev.size)
    (hk : dev.base + (r - n) = k) :
    endWrite s (orFatal (reoffset x base) fun y => orFatal (arrWrite dev m y d) fun m' => .ok (upd m')) =
      .next (upd (Memory.write m k d)) := by
  subst hr hb hk
  rw [regionWrite_eq h h', endWrite_ok]

theorem exec_wrBios (h : a.toNat ≤ 0x00FF) : exec (.wrBios a d) s = .next s := by
  have hlt : (newAddress a).rel.toNat < Device.bios.size := Nat.lt_succ_of_le h
  change endWrite s (roWrite .bios s.bios (newAddress a) s) = _
  rw [roWrite_of_lt s hlt, endWrite_ok]

theorem exec_wrVram (h : 0x8000 ≤ a.toNat) (h' : a.toNat ≤ 0x9FFF) :
    exec (.wrVram a d) s = .next { s with vram := Memory.write s.vram (a.toNat - 0x8000) d } :=
  endWrite_region_of_le (dev := .vram) rfl rfl h (show a.toNat - 0x8000 < 0x2000 by omega) (Nat.zero_add _)

theorem exec_wrWram (h : 0xC000 ≤ a.toNat) (h' : a.toNat ≤ 0xDFFF) :
    exec (.wrWram a d) s = .next { s with wram := Memory.write s.wram (a.toNat - 0xC000) d } :=
  endWrite_region_of_le (dev := .wram) rfl rfl h (show a.toNat - 0xC000 < 0x2000 by omega) (Nat.zero_add _)

theorem exec_wrEcho (h : 0xE000 ≤ a.toNat) (h' : a.toNat ≤ 0xFDFF) :
    exec (.wrEcho a d) s = .next { s with wram := Memory.write s.wram (a.toNat - 0xE000) d } :=
  endWrite_region_of_le (dev := .wram) rfl rfl h (show a.toNat - 0xE000 < 0x2000 by omega) (Nat.zero_add _)

theorem exec_wrOam (h : 0xFE00 ≤ a.toNat) (h' : a.toNat ≤ 0xFE9F) :
    exec (.wrOam a d) s = .next { s with oam := Memory.write s.oam (a.toNat - 0xFE00) d } :=
  endWrite_region_of_le (dev := .oam) rfl rfl h (show a.toNat - 0xFE00 < 0xA0 by omega) (Nat.zero_add _)

theorem exec_wrHram (h : 0xFF80 ≤ a.toNat) (h' : a.toNat ≤ 0xFFFE) :
    exec (.wrHram a d) s = .next { s with hram := Memory.write s.hram (a.toNat - 0xFF80) d } :=
  endWrite_region_of_le (dev := .hram) rfl rfl h (show a.toNat - 0xFF80 < 0x7F by omega) (Nat.zero_add _)

theorem exec_wrUnmapped : exec (.wrUnmapped a d) s = .next s := rfl

/-- R152 in both cartridge windows (R99). -/
theorem exec_wrNocart (h : a.toNat ≤ 0x7FFF ∨ 0xA000 ≤ a.toNat) : exec (.wrNocart a d) s = .next s := by
  change endWrite s (orFatal (cartAddress a) fun x => nullWrite x s) = _
  rcases h with h | h
  · rw [cartAddress_low h, orFatal_ok, nullWrite_eq, endWrite_ok]
  · rw [cartAddress_high h, (reoffset_xram h).1, orFatal_ok, nullWrite_eq, endWrite_ok]

theorem exec_wrIoStub (h : 0xFF00 ≤ a.toNat) (h' : a.toNat ≤ 0xFF7F) : exec (.wrIoStub a d) s = .next s := by
  change endWrite s (orFatal (ioAddress a) fun _ => .ok s) = _
  rw [ioAddress_of h h', orFatal_ok, endWrite_ok]

/-- The MBC1's own re-offset passes on the address that it sees in the RAM window, and with the top level's it subtracts
0xA000 (R99, R166). -/
theorem xram_rel_bounds (h : 0xA000 ≤ a.toNat) : (0x8000 : Addr).toNat ≤ (a - 0x2000).toNat ∧
    (a - 0x2000).toNat - (0x8000 : Addr).toNat = a.toNat - 0xA000 := by
  rw [(reoffset_xram h).2]
  simp only [BitVec.reduceToNat]
  omega

/-- WR_XRAM past the top level's re-offset and the cartridge selector: the controller's own rule (R165). -/
theorem exec_wrXram_mbc1 {c : Mbc1} (hc : s.cart = .mbc1 c) (h : 0xA000 ≤ a.toNat) :
    exec (.wrXram a d) s = endWrite s (orFatal
      (if c.hasRam && c.ramEnable then
        orFatal (reoffset ⟨a, a - 0x2000⟩ 0x8000) fun z =>
          orFatal (arrWrite (.ramBank c.effRamBank) c.ram z d) fun m => .ok { c with ram := m }
      else .ok c) fun c' => .ok { s with cart := .mbc1 c' }) := by
  rw [exec, execWrXram, (reoffset_xram h).1, orFatal_ok, cartWrite_mbc1 _ _ hc]

/-- R165 with the gate open: the byte goes to the effective bank. -/
theorem exec_wrXram {c : Mbc1} (hc : s.cart = .mbc1 c) (gate : (c.hasRam && c.ramEnable) = true)
    (h : 0xA000 ≤ a.toNat) (h' : a.toNat ≤ 0xBFFF) :
    exec (.wrXram a d) s = .next { s with cart := .mbc1 { c with
      ram := Memory.write c.ram (c.effRamBank.toNat * 0x2000 + (a.toNat - 0xA000)) d } } := by
  obtain ⟨hle, hsub⟩ := xram_rel_bounds h
  have hlt : (a - 0x2000).toNat - (0x8000 : Addr).toNat < (Device.ramBank c.effRamBank).size := by
    rw [hsub]
    change a.toNat - 0xA000 < 0x2000
    omega
  rw [exec_wrXram_mbc1 hc h, if_pos gate, regionWrite_eq (x := ⟨a, a - 0x2000⟩) hle hlt, hsub, orFatal_ok, endWrite_ok]
  rfl

/-- R165 with the gate shut: the byte is discarded. -/
theorem exec_wrXram_discarded {c : Mbc1} (hc : s.cart = .mbc1 c) (gate : (c.hasRam && c.ramEnable) ≠ true)
    (h : 0xA000 ≤ a.toNat) : exec (.wrXram a d) s = .next s := by
  rw [exec_wrXram_mbc1 hc h, if_neg gate, orFatal_ok, endWrite_ok, ← hc]

end WriteLaws

section Cells

/-! ## The cell that an operation reaches (R79, R94), at an address of its range -/

variable {s t : State} {a : Addr} {d : Byte} {c : Mbc1} {i : Instr}

/-- The offset in a region, as a number. -/
theorem some_cell_sub {dev : Device} {base : Addr} {n : Nat} (hb : base.toNat = n) (h : n ≤ a.toNat) :
    some (Cell.mk dev (a - base).toNat) = some ⟨dev, a.toNat - n⟩ := by
  subst hb
  rw [toNat_sub_of_le h]

theorem opCell_rdRomx (hc : s.cart = .mbc1 c) (h : 0x4000 ≤ a.toNat) :
    opCell s (.rdRomx a) = some ⟨.romBank c.effRomBank, a.toNat - 0x4000⟩ := by
  simp only [opCell, hc]
  exact some_cell_sub rfl h

theorem opCell_rdXram (hc : s.cart = .mbc1 c) (h : 0xA000 ≤ a.toNat) :
    opCell s (.rdXram a) = if c.ramEnable then some ⟨.ramBank c.effRamBank, a.toNat - 0xA000⟩ else none := by
  simp only [opCell, hc]
  rw [some_cell_sub (n := 0xA000) rfl h]

theorem opCell_wrXram (hc : s.cart = .mbc1 c) (h : 0xA000 ≤ a.toNat) :
    opCell s (.wrXram a d) =
      if c.hasRam && c.ramEnable then some ⟨.ramBank c.effRamBank, a.toNat - 0xA000⟩ else none := by
  simp only [opCell, hc]
  rw [some_cell_sub (n := 0xA000) rfl h]

/-! ## The stores under each update -/

theorem State.store_romBank (hc : s.cart = .mbc1 c) (b : BitVec 7) : s.store (.romBank b) = c.rom := by
  simp only [State.store, hc]

theorem State.store_ramBank (hc : s.cart = .mbc1 c) (b : BitVec 2) : s.store (.ramBank b) = c.ram := by
  simp only [State.store, hc]

theorem State.store_set_vram {dev : Device} (m : Memory) (h : dev ≠ .vram) :
    { s with vram := m }.store dev = s.store dev := by
  cases dev with
  | vram => exact absurd rfl h
  | _ => rfl

theorem State.store_set_wram {dev : Device} (m : Memory) (h : dev ≠ .wram) :
    { s with wram := m }.store dev = s.store dev := by
  cases dev with
  | wram => exact absurd rfl h
  | _ => rfl

theorem State.store_set_oam {dev : Device} (m : Memory) (h : dev ≠ .oam) :
    { s with oam := m }.store dev = s.store dev := by
  cases dev with
  | oam => exact absurd rfl h
  | _ => rfl

theorem State.store_set_hram {dev : Device} (m : Memory) (h : dev ≠ .hram) :
    { s with hram := m }.store dev = s.store dev := by
  cases dev with
  | hram => exact absurd rfl h
  | _ => rfl

/-- A change of the controller reaches the cartridge's RAM banks alone, if it keeps the ROM. -/
theorem State.store_set_cart {c' : Mbc1} {dev : Device} (hc : s.cart = .mbc1 c) (hrom : c'.rom = c.rom)
    (h : ∀ b, dev ≠ .ramBank b) : { s with cart := .mbc1 c' }.store dev = s.store dev := by
  cases dev with
  | romBank b => rw [State.store_romBank hc, State.store_romBank rfl, hrom]
  | ramBank b => exact absurd rfl (h b)
  | _ => rfl

/-! ## What one write does to the cells (R80) -/

/-- From `s` to `t` the cell `reached`, if there is one, gets the byte `d`, and every other cell keeps its byte. -/
structure CellWritten (s t : State) (reached : Option Cell) (d : Byte) : Prop where
  exists_holds : ∀ x, reached = some x → x.valid = true ∧ t.cell x = d
  others : ∀ x : Cell, x.valid = true → reached ≠ some x → t.cell x = s.cell x

/-- A write that reaches no cell: equal stores are equal cells. -/
theorem cellWritten_none (h : ∀ dev, t.store dev = s.store dev) : CellWritten s t none d where
  exists_holds := nofun
  others x _ _ := by rw [State.cell, State.cell, h]

/-- A write of one offset of the store that holds `dev`: another device keeps its store, or has the same store and all
its cells elsewhere in it. -/
theorem cellWritten_some {dev : Device} {off : Nat} (hdev : dev.holdsBytes = true) (hoff : off < dev.size)
    (hstore : t.store dev = Memory.write (s.store dev) (dev.base + off) d)
    (hrest : ∀ dev', dev' ≠ dev → t.store dev' = s.store dev' ∨
      t.store dev' = Memory.write (s.store dev') (dev.base + off) d ∧ ∀ o < dev'.size, dev'.base + o ≠ dev.base + off) :
    CellWritten s t (some ⟨dev, off⟩) d where
  exists_holds x hx := by
    obtain rfl := Option.some.inj hx
    exact ⟨Cell.valid_iff.mpr ⟨hdev, hoff⟩, by rw [State.cell, hstore, Memory.read_write_same]⟩
  others x hx hne := by
    obtain ⟨dev', o⟩ := x
    obtain ⟨-, ho⟩ := Cell.valid_iff.mp hx
    rw [State.cell, State.cell]
    by_cases hd : dev' = dev
    · subst hd
      have ho' : o ≠ off := fun h => hne (by rw [h])
      rw [hstore, Memory.read_write_other d (by simpa using ho')]
    · rcases hrest dev' hd with h | ⟨h, hdisj⟩
      · rw [h]
      · rw [h, Memory.read_write_other d (hdisj o ho)]

/-- A write into an array that has its store to itself. -/
theorem cellWritten_array {dev : Device} {off : Nat} (hdev : dev.holdsBytes = true) (hoff : off < dev.size)
    (hbase : dev.base = 0) (hstore : t.store dev = Memory.write (s.store dev) off d)
    (hrest : ∀ dev', dev' ≠ dev → t.store dev' = s.store dev') : CellWritten s t (some ⟨dev, off⟩) d :=
  cellWritten_some hdev hoff (by rw [hbase, Nat.zero_add, hstore]) fun dev' h => .inl (hrest dev' h)

/-- A bank's bytes stand apart from the other banks' in the one RAM store (R79). -/
theorem ramBank_cells_disjoint {b b' : BitVec 2} {o o' : Nat} (hb : b' ≠ b) (ho : o < Config.ramBankSize)
    (ho' : o' < Config.ramBankSize) : (Device.ramBank b').base + o' ≠ (Device.ramBank b).base + o := by
  have hne : b'.toNat ≠ b.toNat := fun h => hb (BitVec.eq_of_toNat_eq h)
  simp only [Device.base, Config.ramBankSize] at ho ho' ⊢
  omega

/-- A write of one byte of one bank of cartridge RAM. -/
theorem cellWritten_ramBank {b : BitVec 2} {off : Nat} (hc : s.cart = .mbc1 c) (hoff : off < Config.ramBankSize) :
    CellWritten s { s with cart := .mbc1 { c with ram := Memory.write c.ram ((Device.ramBank b).base + off) d } }
      (some ⟨.ramBank b, off⟩) d := by
  refine cellWritten_some rfl hoff ?_ fun dev' hne => ?_
  · rw [State.store_ramBank hc, State.store_ramBank rfl]
  · by_cases hbank : ∃ b', dev' = .ramBank b'
    · obtain ⟨b', rfl⟩ := hbank
      have hb : b' ≠ b := fun h => hne (by rw [h])
      refine .inr ⟨?_, fun o ho => ramBank_cells_disjoint hb hoff ho⟩
      rw [State.store_ramBank hc, State.store_ramBank rfl]
    · exact .inl (State.store_set_cart hc rfl fun b' h => hbank ⟨b', h⟩)

/-- A write of a register changes no cell. -/
theorem cellWritten_register {c' : Mbc1} (hc : s.cart = .mbc1 c) (hrom : c'.rom = c.rom) (hram : c'.ram = c.ram) :
    CellWritten s { s with cart := .mbc1 c' } none d :=
  cellWritten_none fun dev => by
    by_cases hbank : ∃ b, dev = .ramBank b
    · obtain ⟨b, rfl⟩ := hbank
      rw [State.store_ramBank hc, State.store_ramBank rfl, hram]
    · exact State.store_set_cart hc hrom fun b h => hbank ⟨b, h⟩

/-! ## A decoded read delivers its cell's byte -/

/-- The operation delivers the byte of the cell that it reaches, if it reaches one. -/
def ReadsItsCell (s : State) (i : Instr) : Prop :=
  ∀ x, opCell s i = some x → x.valid = true ∧ exec i s = .next (s.deliver (s.cell x))

theorem readsItsCell_of_none (h : opCell s i = none) : ReadsItsCell s i := by
  intro x hx
  rw [h] at hx
  cases hx

theorem readsItsCell_of_some {dev : Device} {off k : Nat} (hcell : opCell s i = some ⟨dev, off⟩)
    (hdev : dev.holdsBytes = true) (hoff : off < dev.size) (hk : dev.base + off = k)
    (hexec : exec i s = .next (s.deliver (Memory.read (s.store dev) k))) : ReadsItsCell s i := by
  intro x hx
  obtain rfl := Option.some.inj (hcell.symm.trans hx)
  exact ⟨Cell.valid_iff.mpr ⟨hdev, hoff⟩, by rw [hexec, State.cell, hk]⟩

/-- Row by row of R100. -/
theorem decodeRead_readsItsCell (s : State) (a : Addr) : ReadsItsCell s (decodeRead s.mode a) := by
  refine decodeRead_elim (P := ReadsItsCell s) s.mode a ?bios ?nocart ?rom0 ?romx ?vram ?xram ?wram ?echo ?oam ?unmapped
    ?stub ?boot ?hram
  case bios =>
    exact fun _ h => readsItsCell_of_some (dev := .bios) rfl rfl (Nat.lt_succ_of_le h) (Nat.zero_add _) (exec_rdBios h)
  case nocart => exact fun _ _ => readsItsCell_of_none rfl
  case rom0 =>
    intro hk _ h
    obtain ⟨c, hc⟩ := Cart.kind_eq_mbc1.mp hk
    refine readsItsCell_of_some (dev := .romBank 0) (k := a.toNat) rfl rfl (Nat.lt_succ_of_le h) (by simp [Device.base]) ?_
    rw [State.store_romBank hc, exec_rdRom0 hc h]
  case romx =>
    intro hk h h'
    obtain ⟨c, hc⟩ := Cart.kind_eq_mbc1.mp hk
    refine readsItsCell_of_some (opCell_rdRomx hc h) rfl (show a.toNat - 0x4000 < 0x4000 by omega) rfl ?_
    rw [State.store_romBank hc]
    exact exec_rdRomx hc h h'
  case vram =>
    exact fun h h' => readsItsCell_of_some (dev := .vram) (some_cell_sub rfl h) rfl
      (show a.toNat - 0x8000 < 0x2000 by omega) (Nat.zero_add _) (exec_rdVram h h')
  case xram =>
    intro hk h h'
    obtain ⟨c, hc⟩ := Cart.kind_eq_mbc1.mp hk
    have hcell := opCell_rdXram hc h
    have hexec := exec_rdXram hc h h'
    by_cases gate : c.ramEnable = true
    · rw [if_pos gate] at hcell hexec
      refine readsItsCell_of_some hcell rfl (show a.toNat - 0xA000 < 0x2000 by omega) rfl ?_
      rw [State.store_ramBank hc]
      exact hexec
    · rw [if_neg gate] at hcell
      exact readsItsCell_of_none hcell
  case wram =>
    exact fun h h' => readsItsCell_of_some (dev := .wram) (some_cell_sub rfl h) rfl
      (show a.toNat - 0xC000 < 0x2000 by omega) (Nat.zero_add _) (exec_rdWram h h')
  case echo =>
    exact fun h h' => readsItsCell_of_some (dev := .wram) (some_cell_sub rfl h) rfl
      (show a.toNat - 0xE000 < 0x2000 by omega) (Nat.zero_add _) (exec_rdEcho h h')
  case oam =>
    exact fun h h' => readsItsCell_of_some (dev := .oam) (some_cell_sub rfl h) rfl
      (show a.toNat - 0xFE00 < 0xA0 by omega) (Nat.zero_add _) (exec_rdOam h h')
  case unmapped => exact fun _ => readsItsCell_of_none rfl
  case stub => exact fun _ _ _ => readsItsCell_of_none rfl
  case boot => exact fun _ => readsItsCell_of_none rfl
  case hram =>
    exact fun h h' => readsItsCell_of_some (dev := .hram) (some_cell_sub rfl h) rfl
      (show a.toNat - 0xFF80 < 0x7F by omega) (Nat.zero_add _) (exec_rdHram h h')

/-! ## A decoded write completes and writes its cell -/

/-- The operation completes without a fatal (R72), and its byte goes to the cell that it reaches and no other (R80). -/
def WritesItsCell (s : State) (d : Byte) (i : Instr) : Prop :=
  ∃ t, exec i s = .next t ∧ t.fault = s.fault ∧ CellWritten s t (opCell s i) d

theorem writesItsCell_of_exec {reached : Option Cell} (hexec : exec i s = .next t) (hfault : t.fault = s.fault)
    (hcell : opCell s i = reached) (hw : CellWritten s t reached d) : WritesItsCell s d i :=
  ⟨t, hexec, hfault, hcell ▸ hw⟩

theorem writesItsCell_of_discarded (hexec : exec i s = .next s) (hcell : opCell s i = none) : WritesItsCell s d i :=
  writesItsCell_of_exec hexec rfl hcell (cellWritten_none fun _ => rfl)

/-- Row by row of R100. -/
theorem decodeWrite_writesItsCell (s : State) (a : Addr) (d : Byte) : WritesItsCell s d (decodeWrite s.mode a d) := by
  refine decodeWrite_elim (P := WritesItsCell s d) s.mode a d ?bios ?nocart ?ramen ?romb ?bankset ?mode ?vram ?xram ?wram
    ?echo ?oam ?unmapped ?stub ?boot ?hram
  case bios => exact fun _ h => writesItsCell_of_discarded (exec_wrBios h) rfl
  case nocart => exact fun _ h => writesItsCell_of_discarded (exec_wrNocart (h.imp And.right And.left)) rfl
  case ramen =>
    intro hk _ _
    obtain ⟨c, hc⟩ := Cart.kind_eq_mbc1.mp hk
    exact writesItsCell_of_exec (exec_wrRamen hc) rfl rfl (cellWritten_register hc rfl rfl)
  case romb =>
    intro hk _ _
    obtain ⟨c, hc⟩ := Cart.kind_eq_mbc1.mp hk
    exact writesItsCell_of_exec (exec_wrRomb hc) rfl rfl (cellWritten_register hc rfl rfl)
  case bankset =>
    intro hk _ _
    obtain ⟨c, hc⟩ := Cart.kind_eq_mbc1.mp hk
    exact writesItsCell_of_exec (exec_wrBankset hc) rfl rfl (cellWritten_register hc rfl rfl)
  case mode =>
    intro hk _ _
    obtain ⟨c, hc⟩ := Cart.kind_eq_mbc1.mp hk
    exact writesItsCell_of_exec (exec_wrMode hc) rfl rfl (cellWritten_register hc rfl rfl)
  case vram =>
    exact fun h h' => writesItsCell_of_exec (exec_wrVram h h') rfl (some_cell_sub rfl h) <|
      cellWritten_array rfl (show a.toNat - 0x8000 < 0x2000 by omega) rfl rfl fun _ => State.store_set_vram _
  case xram =>
    intro hk h h'
    obtain ⟨c, hc⟩ := Cart.kind_eq_mbc1.mp hk
    have hcell := opCell_wrXram (d := d) hc h
    by_cases gate : (c.hasRam && c.ramEnable) = true
    · rw [if_pos gate] at hcell
      exact writesItsCell_of_exec (exec_wrXram hc gate h h') rfl hcell
        (cellWritten_ramBank hc (show a.toNat - 0xA000 < 0x2000 by omega))
    · rw [if_neg gate] at hcell
      exact writesItsCell_of_discarded (exec_wrXram_discarded hc gate h) hcell
  case wram =>
    exact fun h h' => writesItsCell_of_exec (exec_wrWram h h') rfl (some_cell_sub rfl h) <|
      cellWritten_array rfl (show a.toNat - 0xC000 < 0x2000 by omega) rfl rfl fun _ => State.store_set_wram _
  case echo =>
    exact fun h h' => writesItsCell_of_exec (exec_wrEcho h h') rfl (some_cell_sub rfl h) <|
      cellWritten_array rfl (show a.toNat - 0xE000 < 0x2000 by omega) rfl rfl fun _ => State.store_set_wram _
  case oam =>
    exact fun h h' => writesItsCell_of_exec (exec_wrOam h h') rfl (some_cell_sub rfl h) <|
      cellWritten_array rfl (show a.toNat - 0xFE00 < 0xA0 by omega) rfl rfl fun _ => State.store_set_oam _
  case unmapped => exact fun _ => writesItsCell_of_discarded exec_wrUnmapped rfl
  case stub => exact fun h h' _ => writesItsCell_of_discarded (exec_wrIoStub h h') rfl
  case boot => exact fun _ => writesItsCell_of_exec exec_wrIoBoot rfl rfl (cellWritten_none fun _ => rfl)
  case hram =>
    exact fun h h' => writesItsCell_of_exec (exec_wrHram h h') rfl (some_cell_sub rfl h) <|
      cellWritten_array rfl (show a.toNat - 0xFF80 < 0x7F by omega) rfl rfl fun _ => State.store_set_hram _

end Cells

section Running

/-! ## No transaction of a running block is fatal (R72) -/

variable {s : State}

/-- Every transaction completes and records no fatal, and a read delivers a byte. -/
theorem transact_completes (x : Transaction) (s : State) :
    ∃ t, transact x s = .next t ∧ t.fault = s.fault ∧ (x.isWrite = false → ∃ v, t = s.deliver v) := by
  rw [transact_eq]
  cases x with
  | read a =>
    obtain ⟨v, hv⟩ := exec_decodeRead s a
    exact ⟨s.deliver v, hv s.reads, rfl, fun _ => ⟨v, rfl⟩⟩
  | write a d =>
    obtain ⟨t, hexec, hf, -⟩ := decodeWrite_writesItsCell s a d
    exact ⟨t, hexec, hf, nofun⟩

/-- A running block steps, and runs on. -/
theorem step_running (hs : s.running) : ∃ t, step s = .next t ∧ t.running := by
  cases hp : s.pending with
  | nil => exact ⟨s, step_idle hs hp, hs⟩
  | cons x rest =>
    obtain ⟨t, ht, hf, -⟩ := transact_completes x { s with pending := rest }
    exact ⟨t, (step_transact hs hp).trans ht, hf.trans hs⟩

end Running

section FatalChecks

/-! ## The checks that fail (R64, R69) -/

variable {dev : Device} {m : Memory} {a : Address}

theorem arrRead_of_ge (h : dev.size ≤ a.rel.toNat) :
    arrRead dev m a = .error (.deviceOutOfRange dev a.raw a.rel dev.size) := by
  rw [arrRead, inBounds_of_ge h, orFatal_error]

theorem arrWrite_of_ge (v : Byte) (h : dev.size ≤ a.rel.toNat) :
    arrWrite dev m a v = .error (.deviceOutOfRange dev a.raw a.rel dev.size) := by
  rw [arrWrite, inBounds_of_ge h, orFatal_error]

theorem checkFresh_of_ne (h : a.rel ≠ a.raw) : checkFresh a = .error (.decoderOffsetAddress a.raw a.rel) :=
  if_neg h

end FatalChecks

/-! ## The obligations -/

/-- Settles O42: every row of R100 completes at the addresses that decode to it, and the idle step holds the state. -/
theorem noTransactionFaults : Obligations.NoTransactionFaults := by
  intro s hs
  refine ⟨fun x => ?_, step_running hs⟩
  obtain ⟨t, ht, hf, hread⟩ := transact_completes x s
  exact ⟨t, ht, hf.trans hs, hread⟩

/-- Settles O43: a construction records no fatal, and a running block steps and runs on. -/
theorem noRunFromConstructionFaults : Obligations.NoRunFromConstructionFaults := by
  intro image cart init s ts k h
  obtain ⟨-, -, -, -, -, -, -, -, hf⟩ := construct_eq_ok h
  have hstart : { s with pending := ts }.running := hf
  exact coreRun_total core (P := State.running) (fun _ => step_running) k hstart

/-- Settles O46: row by row, a read delivers its cell's byte and a write reaches its cell alone. -/
theorem cellsAreConsistent : Obligations.CellsAreConsistent := by
  refine ⟨fun s a x hx => ?read, fun s t a d h => ?write⟩
  case read =>
    rw [transact_eq]
    exact decodeRead_readsItsCell s a x hx
  case write =>
    obtain ⟨t', hexec, -, hcells⟩ := decodeWrite_writesItsCell s a d
    rw [transact_eq] at h
    obtain rfl := Host.Outcome.next.inj (h.symm.trans hexec)
    exact ⟨hcells.exists_holds, hcells.others⟩

/-- Settles O11: the two branches of the re-offset; the subtraction that does not underflow can only lower `rel`. -/
theorem reoffsetSubtractsOrIsFatal : Obligations.ReoffsetSubtractsOrIsFatal := by
  refine fun a shift => ⟨reoffset_of_lt, fun h => ?_⟩
  have hsub : (a.rel - shift).toNat = a.rel.toNat - shift.toNat := toNat_sub_of_le h
  refine ⟨_, reoffset_of_le h, rfl, hsub, fun hle => ?_⟩
  exact hsub ▸ (Nat.sub_le _ _).trans hle

/-- Settles O12: the bounds check decides, and past it the array is the store's bytes from its base on. -/
theorem byteArrayDeviceChecksItsBounds : Obligations.ByteArrayDeviceChecksItsBounds := by
  refine ⟨fun dev m a v => ⟨fun h => ⟨arrRead_of_ge h, arrWrite_of_ge v h⟩, fun h => ⟨arrRead_of_lt h, ?_⟩⟩,
    rfl, rfl, rfl, rfl, fun _ => rfl, fun _ => rfl, rfl⟩
  exact ⟨_, arrWrite_of_lt v h, Memory.read_write_same _ _ _, fun k hk => Memory.read_write_other v hk⟩

/-- Settles O14: the precondition is the first check of both tables, and a fresh address passes it. -/
theorem topLevelNeedsAFreshAddress : Obligations.TopLevelNeedsAFreshAddress := by
  refine ⟨fun s a d h => ⟨?read, ?write⟩, checkFresh_newAddress⟩
  case read => rw [topRead, checkFresh_of_ne h, orFatal_error]
  case write => rw [topWrite, checkFresh_of_ne h, orFatal_error]

/-- Settles O54: both re-offsets pass in the window, and together they subtract 0xA000. -/
theorem cartridgeRamOffsetsCompose : Obligations.CartridgeRamOffsetsCompose := by
  intro a h _
  have hoff : a - 0x2000 - 0x8000 = a - 0xA000 := by rw [BitVec.sub_sub]; rfl
  refine ⟨_, _, (reoffset_xram h).1, reoffset_of_le (xram_rel_bounds h).1, rfl, ?rel, ?offset⟩
  case rel => exact (congrArg BitVec.toNat hoff).trans (toNat_sub_of_le h)
  case offset =>
    change a - (a - 0x2000 - 0x8000) = 0xA000
    rw [hoff, sub_sub_cancel]

end Sys2Proof.Machine

/-! PROOFS. The operation map of R100 agrees with the decode, and what the decode looks at in its mode. -/

namespace Sys2Proof

/-! ## The rows of the operation map (R100), as numbers -/

section OperationMap

variable {m : Mode} {a : Addr}

/-- A row that needs one kind of cartridge: its column K and its range. -/
theorem cartRow_iff {k : CartKind} {inRange : Bool} :
    (m.cart == k && inRange) = true ↔ m.cart = k ∧ inRange = true := by
  rw [Bool.and_eq_true, beq_iff_eq]

theorem biosRow_iff : (m.biosEnabled && Addr.within a 0x0000 0x00FF) = true ↔
    m.biosEnabled = true ∧ a.toNat ≤ 0x00FF := by
  simp [Addr.within_iff]

theorem Mode.cartWindow_iff : m.cartWindow a = true ↔
    (if m.biosEnabled then 0x0100 else 0x0000) ≤ a.toNat ∧ a.toNat ≤ 0x7FFF ∨ 0xA000 ≤ a.toNat ∧ a.toNat ≤ 0xBFFF := by
  rw [Mode.cartWindow, Bool.or_eq_true, Mode.underBios_iff, Addr.within_iff]
  rfl

theorem Addr.unmapped_iff : a.unmapped = true ↔ 0xFEA0 ≤ a.toNat ∧ a.toNat ≤ 0xFEFF ∨ a.toNat = 0xFFFF := by
  rw [Addr.unmapped, Bool.or_eq_true, Addr.within_iff, beq_iff_eq, ← BitVec.toNat_inj]
  rfl

/-- The I/O window without the latch. -/
theorem Addr.ioStub_iff : a.ioStub = true ↔ 0xFF00 ≤ a.toNat ∧ a.toNat ≤ 0xFF7F ∧ a.toNat ≠ 0xFF50 := by
  rw [Addr.ioStub, Bool.or_eq_true, Addr.within_iff, Addr.within_iff]
  simp only [BitVec.reduceToNat]
  omega

end OperationMap

/-! ## Decode and encode agree (R95, R100, R103) -/

section DecodeEncode

/-- The operation of a row of R100, at an address of its range, is what its transaction decodes to. -/
theorem decode_encode {m : Mode} {i : Instr} (h : i.wellFormed m = true) : decode m (encode i) = i := by
  cases i with
  | rdBios a => exact (biosRow_iff.mp h).elim decodeRead_bios
  | wrBios a d => exact (biosRow_iff.mp h).elim decodeWrite_bios
  | rdVram a => exact (Addr.within_iff.mp h).elim decodeRead_vram
  | wrVram a d => exact (Addr.within_iff.mp h).elim decodeWrite_vram
  | rdWram a => exact (Addr.within_iff.mp h).elim decodeRead_wram
  | wrWram a d => exact (Addr.within_iff.mp h).elim decodeWrite_wram
  | rdEcho a => exact (Addr.within_iff.mp h).elim decodeRead_echo
  | wrEcho a d => exact (Addr.within_iff.mp h).elim decodeWrite_echo
  | rdOam a => exact (Addr.within_iff.mp h).elim decodeRead_oam
  | wrOam a d => exact (Addr.within_iff.mp h).elim decodeWrite_oam
  | rdUnmapped a =>
    rcases Addr.unmapped_iff.mp h with ⟨h, h'⟩ | h
    · exact decodeRead_hole h h'
    · exact decodeRead_top h
  | wrUnmapped a d =>
    rcases Addr.unmapped_iff.mp h with ⟨h, h'⟩ | h
    · exact decodeWrite_hole h h'
    · exact decodeWrite_top h
  | rdHram a => exact (Addr.within_iff.mp h).elim decodeRead_hram
  | wrHram a d => exact (Addr.within_iff.mp h).elim decodeWrite_hram
  | rdNocart a =>
    obtain ⟨hk, h⟩ := cartRow_iff.mp h
    rcases Mode.cartWindow_iff.mp h with ⟨hb, h⟩ | ⟨h, h'⟩
    · exact decodeRead_nocart_low hk (not_under_bios hb) h
    · exact decodeRead_nocart_high hk h h'
  | wrNocart a d =>
    obtain ⟨hk, h⟩ := cartRow_iff.mp h
    rcases Mode.cartWindow_iff.mp h with ⟨hb, h⟩ | ⟨h, h'⟩
    · exact decodeWrite_nocart_low hk (not_under_bios hb) h
    · exact decodeWrite_nocart_high hk h h'
  | rdRom0 a =>
    obtain ⟨hk, h⟩ := cartRow_iff.mp h
    obtain ⟨hb, h⟩ := Mode.underBios_iff.mp h
    exact decodeRead_rom0 hk (not_under_bios hb) h
  | rdRomx a =>
    obtain ⟨hk, h⟩ := cartRow_iff.mp h
    exact (Addr.within_iff.mp h).elim (decodeRead_romx hk)
  | rdXram a =>
    obtain ⟨hk, h⟩ := cartRow_iff.mp h
    exact (Addr.within_iff.mp h).elim (decodeRead_xram hk)
  | wrRamen a d =>
    obtain ⟨hk, h⟩ := cartRow_iff.mp h
    obtain ⟨hb, h⟩ := Mode.underBios_iff.mp h
    exact decodeWrite_ramen hk (not_under_bios hb) h
  | wrRomb a d =>
    obtain ⟨hk, h⟩ := cartRow_iff.mp h
    exact (Addr.within_iff.mp h).elim (decodeWrite_romb hk)
  | wrBankset a d =>
    obtain ⟨hk, h⟩ := cartRow_iff.mp h
    exact (Addr.within_iff.mp h).elim (decodeWrite_bankset hk)
  | wrMode a d =>
    obtain ⟨hk, h⟩ := cartRow_iff.mp h
    exact (Addr.within_iff.mp h).elim (decodeWrite_mode hk)
  | wrXram a d =>
    obtain ⟨hk, h⟩ := cartRow_iff.mp h
    exact (Addr.within_iff.mp h).elim (decodeWrite_xram hk)
  | rdIoStub a => obtain ⟨h, h', hne⟩ := Addr.ioStub_iff.mp h; exact decodeRead_stub h h' hne
  | wrIoStub a d => obtain ⟨h, h', hne⟩ := Addr.ioStub_iff.mp h; exact decodeWrite_stub h h' hne
  | rdIoBoot => exact decodeRead_boot rfl
  | wrIoBoot d => exact decodeWrite_boot rfl

/-- The operation is one of the map of R100 in the mode, and its transaction is `t`. -/
def DecodesWhole (m : Mode) (t : Transaction) (i : Instr) : Prop := i.wellFormed m = true ∧ encode i = t

variable (m : Mode) (a : Addr) (d : Byte)

theorem decodeRead_whole : DecodesWhole m (.read a) (decodeRead m a) := by
  refine decodeRead_elim (P := DecodesWhole m (.read a)) m a ?bios ?nocart ?rom0 ?romx ?vram ?xram ?wram ?echo ?oam
    ?unmapped ?stub ?boot ?hram
  case bios => exact fun hb h => ⟨biosRow_iff.mpr ⟨hb, h⟩, rfl⟩
  case nocart => exact fun hk h => ⟨cartRow_iff.mpr ⟨hk, Mode.cartWindow_iff.mpr h⟩, rfl⟩
  case rom0 => exact fun hk hb h => ⟨cartRow_iff.mpr ⟨hk, Mode.underBios_iff.mpr ⟨hb, h⟩⟩, rfl⟩
  case romx | xram => exact fun hk h h' => ⟨cartRow_iff.mpr ⟨hk, Addr.within_iff.mpr ⟨h, h'⟩⟩, rfl⟩
  case vram | wram | echo | oam | hram => exact fun h h' => ⟨Addr.within_iff.mpr ⟨h, h'⟩, rfl⟩
  case unmapped => exact fun h => ⟨Addr.unmapped_iff.mpr h, rfl⟩
  case stub => exact fun h h' hne => ⟨Addr.ioStub_iff.mpr ⟨h, h', hne⟩, rfl⟩
  case boot => exact fun h => ⟨rfl, congrArg Transaction.read h.symm⟩

theorem decodeWrite_whole : DecodesWhole m (.write a d) (decodeWrite m a d) := by
  refine decodeWrite_elim (P := DecodesWhole m (.write a d)) m a d ?bios ?nocart ?ramen ?romb ?bankset ?mode ?vram ?xram
    ?wram ?echo ?oam ?unmapped ?stub ?boot ?hram
  case bios => exact fun hb h => ⟨biosRow_iff.mpr ⟨hb, h⟩, rfl⟩
  case nocart => exact fun hk h => ⟨cartRow_iff.mpr ⟨hk, Mode.cartWindow_iff.mpr h⟩, rfl⟩
  case ramen => exact fun hk hb h => ⟨cartRow_iff.mpr ⟨hk, Mode.underBios_iff.mpr ⟨hb, h⟩⟩, rfl⟩
  case romb | bankset | mode | xram => exact fun hk h h' => ⟨cartRow_iff.mpr ⟨hk, Addr.within_iff.mpr ⟨h, h'⟩⟩, rfl⟩
  case vram | wram | echo | oam | hram => exact fun h h' => ⟨Addr.within_iff.mpr ⟨h, h'⟩, rfl⟩
  case unmapped => exact fun h => ⟨Addr.unmapped_iff.mpr h, rfl⟩
  case stub => exact fun h h' hne => ⟨Addr.ioStub_iff.mpr ⟨h, h', hne⟩, rfl⟩
  case boot => exact fun h => ⟨rfl, congrArg (Transaction.write · d) h.symm⟩

end DecodeEncode

/-! ## What the mode inputs reach (R104) -/

section ModeInputs

variable {m m' : Mode} {t : Transaction}

/-- Above the bios the decode looks at the cartridge's kind only. -/
theorem decode_eq_of_cart_eq (h : 0x00FF < t.addr.toNat) (hk : m.cart = m'.cart) : decode m t = decode m' t := by
  cases t with
  | read a =>
    have hb : ¬a.toNat ≤ 0x00FF := Nat.not_le_of_lt h
    simp only [decode, decodeRead_eq, hb, false_and, if_false, hk]
  | write a d =>
    have hb : ¬a.toNat ≤ 0x00FF := Nat.not_le_of_lt h
    simp only [decode, decodeWrite_eq, hb, false_and, if_false, hk]

/-- Outside the bios and the cartridge's windows the decode looks at neither mode input. -/
theorem decode_eq_of_outside (h : 0x8000 ≤ t.addr.toNat) (h' : t.addr.toNat ≤ 0x9FFF ∨ 0xC000 ≤ t.addr.toNat) :
    decode m t = decode m' t := by
  cases t with
  | read a =>
    rcases h' with h' | h'
    · exact (decodeRead_vram h h').trans (decodeRead_vram h h').symm
    · replace h' : 0xC000 ≤ a.toNat := h'
      simp (disch := omega) only [decode, decodeRead_eq, if_neg]
  | write a d =>
    rcases h' with h' | h'
    · exact (decodeWrite_vram h h').trans (decodeWrite_vram h h').symm
    · replace h' : 0xC000 ≤ a.toNat := h'
      simp (disch := omega) only [decode, decodeWrite_eq, if_neg]

end ModeInputs

end Sys2Proof

namespace Sys2Proof.Machine

/-! ## The obligations -/

/-- Settles O2: each row of R100 gives its range, and the decode of that range is the row's operation. -/
theorem decodeOfEncodeIsIdentity : Obligations.DecodeOfEncodeIsIdentity := fun _ _ => decode_encode

/-- Settles O3: each row that a decode can give holds the transaction's address and data, inside the row's range. -/
theorem everyTransactionDecodes : Obligations.EveryTransactionDecodes := by
  intro m t
  cases t with
  | read a => exact decodeRead_whole m a
  | write a d => exact decodeWrite_whole m a d

/-- Settles O6: the latch is looked at below 0x0100 only, and the cartridge's kind in its two windows only. -/
theorem modeInputsChangeOnlyTheirRanges : Obligations.ModeInputsChangeOnlyTheirRanges :=
  fun _ _ _ => ⟨decode_eq_of_cart_eq, decode_eq_of_outside⟩

/-- Settles O8: a step with a transaction waiting is that transaction, and a transaction is its operation's rule. -/
theorem stepRunsTheDecodedOperation : Obligations.StepRunsTheDecodedOperation :=
  fun _ t _ hf hp => (step_transact hf hp).trans (transact_eq t _)

end Sys2Proof.Machine

/-! PROOFS. The routing tables agree with the operations, and the unmapping of the bios. -/

namespace Sys2Proof.Machine

section InnerTables

/-! ## The inner tables (R97, R98, R190), row by row -/

variable {s : State} {c : Mbc1} {x : Address} {a : Addr} {d : Byte} {b : Bool}

/-- R97, with its comparisons as numbers. -/
theorem mbc1Read_eq : mbc1Read c x =
    if x.rel.toNat ≤ 0x3FFF then arrRead (.romBank 0) c.rom x
    else if x.rel.toNat ≤ 0x7FFF then orFatal (reoffset x 0x4000) fun y => arrRead (.romBank c.effRomBank) c.rom y
    else if x.rel.toNat ≤ 0x9FFF then
      if c.ramEnable then orFatal (reoffset x 0x8000) fun y => arrRead (.ramBank c.effRamBank) c.ram y else .ok 0x00
    else .error (mbc1OutOfRange x) := rfl

theorem mbc1Read_rom0 (h : x.rel.toNat ≤ 0x3FFF) : mbc1Read c x = arrRead (.romBank 0) c.rom x :=
  if_pos h

theorem mbc1Read_romx (h : 0x4000 ≤ x.rel.toNat) (h' : x.rel.toNat ≤ 0x7FFF) :
    mbc1Read c x = orFatal (reoffset x 0x4000) fun y => arrRead (.romBank c.effRomBank) c.rom y := by
  simp (disch := omega) only [mbc1Read_eq, if_neg, if_pos]

theorem mbc1Read_xram (h : 0x8000 ≤ x.rel.toNat) (h' : x.rel.toNat ≤ 0x9FFF) :
    mbc1Read c x = if c.ramEnable then
      orFatal (reoffset x 0x8000) fun y => arrRead (.ramBank c.effRamBank) c.ram y else .ok 0x00 := by
  simp (disch := omega) only [mbc1Read_eq, if_neg, if_pos]

/-- R98, with its comparisons as numbers. -/
theorem mbc1Write_eq : mbc1Write c x d =
    if x.rel.toNat ≤ 0x1FFF then .ok { c with ramEnable := ramEnableAfter c.hasRam d }
    else if x.rel.toNat ≤ 0x3FFF then .ok { c with romBank := romBankField d }
    else if x.rel.toNat ≤ 0x5FFF then .ok { c with bankSet := bankSetField d }
    else if x.rel.toNat ≤ 0x7FFF then .ok { c with ramMode := ramModeAfter c.hasRam d }
    else if x.rel.toNat ≤ 0x9FFF then
      if c.hasRam && c.ramEnable then
        orFatal (reoffset x 0x8000) fun y =>
          orFatal (arrWrite (.ramBank c.effRamBank) c.ram y d) fun m => .ok { c with ram := m }
      else .ok c
    else .error (mbc1OutOfRange x) := rfl

theorem mbc1Write_ramen (h : x.rel.toNat ≤ 0x1FFF) :
    mbc1Write c x d = .ok { c with ramEnable := ramEnableAfter c.hasRam d } :=
  if_pos h

theorem mbc1Write_romb (h : 0x2000 ≤ x.rel.toNat) (h' : x.rel.toNat ≤ 0x3FFF) :
    mbc1Write c x d = .ok { c with romBank := romBankField d } := by
  simp (disch := omega) only [mbc1Write_eq, if_neg, if_pos]

theorem mbc1Write_bankset (h : 0x4000 ≤ x.rel.toNat) (h' : x.rel.toNat ≤ 0x5FFF) :
    mbc1Write c x d = .ok { c with bankSet := bankSetField d } := by
  simp (disch := omega) only [mbc1Write_eq, if_neg, if_pos]

theorem mbc1Write_mode (h : 0x6000 ≤ x.rel.toNat) (h' : x.rel.toNat ≤ 0x7FFF) :
    mbc1Write c x d = .ok { c with ramMode := ramModeAfter c.hasRam d } := by
  simp (disch := omega) only [mbc1Write_eq, if_neg, if_pos]

theorem mbc1Write_xram (h : 0x8000 ≤ x.rel.toNat) (h' : x.rel.toNat ≤ 0x9FFF) :
    mbc1Write c x d = if c.hasRam && c.ramEnable then
      orFatal (reoffset x 0x8000) fun y =>
        orFatal (arrWrite (.ramBank c.effRamBank) c.ram y d) fun m => .ok { c with ram := m }
      else .ok c := by
  simp (disch := omega) only [mbc1Write_eq, if_neg, if_pos]

/-- Two routes through the cartridge selector agree where the controller's own rules do (R150). -/
theorem cartRead_congr {k k' : Mbc1 → Address → Except Fatal Byte} (h : ∀ c, k c x = k' c x) :
    cartRead s x k = cartRead s x k' := by
  cases hc : s.cart with
  | none => rw [cartRead_none x k hc, cartRead_none x k' hc]
  | mbc1 c => rw [cartRead_mbc1 x k hc, cartRead_mbc1 x k' hc, h]

theorem cartWrite_congr {k k' : Mbc1 → Address → Except Fatal Mbc1} (h : ∀ c, k c x = k' c x) :
    cartWrite s x k = cartWrite s x k' := by
  cases hc : s.cart with
  | none => rw [cartWrite_none x k hc, cartWrite_none x k' hc]
  | mbc1 c => rw [cartWrite_mbc1 x k hc, cartWrite_mbc1 x k' hc, h]

/-- The latch's offset in the window is its system address less 0xFF00 (R190). -/
theorem sub_eq_bootOffset_iff (h : 0xFF00 ≤ a.toNat) : a - 0xFF00 = Config.bootOffset ↔ a.toNat = 0xFF50 := by
  have hs : (a - 0xFF00).toNat = a.toNat - 0xFF00 := toNat_sub_of_le h
  rw [← BitVec.toNat_inj, hs]
  change a.toNat - 0xFF00 = 0x50 ↔ a.toNat = 0xFF50
  omega

/-- The re-offset and the I/O block's own bounds check both pass in the window (R190). -/
theorem reoffset_io (h : 0xFF00 ≤ a.toNat) (h' : a.toNat ≤ 0xFF7F) :
    reoffset (newAddress a) 0xFF00 = .ok ⟨a, a - 0xFF00⟩ ∧ inBounds .io ⟨a, a - 0xFF00⟩ = .ok ⟨a, a - 0xFF00⟩ := by
  have hx : reoffset (newAddress a) 0xFF00 = .ok ⟨a, a - 0xFF00⟩ := reoffset_of_le h
  have hio := ioAddress_of h h'
  rw [ioAddress, hx, orFatal_ok] at hio
  exact ⟨hx, hio⟩

theorem ioRead_window (h : 0xFF00 ≤ a.toNat) (h' : a.toNat ≤ 0xFF7F) :
    (orFatal (reoffset (newAddress a) 0xFF00) fun x => ioRead b x) =
      if a.toNat = 0xFF50 then .ok (biosEnabledByte b) else .ok 0xFF := by
  obtain ⟨hx, hin⟩ := reoffset_io h h'
  rw [hx, orFatal_ok, ioRead, hin, orFatal_ok]
  simp only [sub_eq_bootOffset_iff h]

/-- The I/O block's write, followed by what the top level does with the latch after it. -/
theorem ioWrite_window {α : Type} {k : Bool → Except Fatal α} (h : 0xFF00 ≤ a.toNat) (h' : a.toNat ≤ 0xFF7F) :
    (orFatal (reoffset (newAddress a) 0xFF00) fun x => orFatal (ioWrite b x d) k) =
      if a.toNat = 0xFF50 then k (biosEnabledAfter b d) else k b := by
  obtain ⟨hx, hin⟩ := reoffset_io h h'
  rw [hx, orFatal_ok, ioWrite, hin, orFatal_ok, apply_ite (orFatal · k)]
  simp only [sub_eq_bootOffset_iff h, orFatal_ok]

end InnerTables

section RoutingTable

/-! ## Each operation is its row of the routing table (R93, R106) -/

/-- The operation does what a read whose routing gives `r` does. -/
def ReadsAs (s : State) (i : Instr) (r : Except Fatal Byte) : Prop := exec i s = endRead s r

/-- The operation does what a write whose routing gives `r` does. -/
def WritesAs (s : State) (i : Instr) (r : Except Fatal State) : Prop := exec i s = endWrite s r

/-- Two tables that make the same test agree if their branches do. -/
theorem rel_ite {α β : Type} {R : α → β → Prop} {p : Prop} [Decidable p] {i j : α} {r q : β}
    (hp : p → R i r) (hn : ¬p → R j q) : R (if p then i else j) (if p then r else q) := by
  by_cases h : p
  · rw [if_pos h, if_pos h]; exact hp h
  · rw [if_neg h, if_neg h]; exact hn h

variable {s : State} {a : Addr} {d : Byte}

/-- Below 0x8000 the cartridge sees the address as issued (R93). -/
theorem readsAs_cart_low (h : a.toNat ≤ 0x7FFF) :
    ReadsAs s (if s.mode.cart = .none then .rdNocart a else if a.toNat ≤ 0x3FFF then .rdRom0 a else .rdRomx a)
      (cartRead s (newAddress a) mbc1Read) := by
  split_ifs with hk h0
  · rw [cartRead_none _ _ (Cart.kind_eq_none.mp hk)]
    exact exec_rdNocart (.inl h)
  · exact congrArg (endRead s) (cartRead_congr fun _ => (mbc1Read_rom0 h0).symm)
  · exact congrArg (endRead s) (cartRead_congr fun _ => (mbc1Read_romx (Nat.lt_of_not_le h0) h).symm)

/-- In the RAM window the cartridge sees the address less 0x2000 (R93, R99). -/
theorem readsAs_cart_high (h : 0xA000 ≤ a.toNat) (h' : a.toNat ≤ 0xBFFF) :
    ReadsAs s (if s.mode.cart = .none then .rdNocart a else .rdXram a)
      (orFatal (reoffset (newAddress a) 0x2000) fun x => cartRead s x mbc1Read) := by
  obtain ⟨hx, hrel⟩ := reoffset_xram h
  have hlo : 0x8000 ≤ (a - 0x2000).toNat := by omega
  have hhi : (a - 0x2000).toNat ≤ 0x9FFF := by omega
  split_ifs with hk
  · rw [hx, orFatal_ok, cartRead_none _ _ (Cart.kind_eq_none.mp hk)]
    exact exec_rdNocart (.inr h)
  · rw [ReadsAs, exec, execRdXram, hx, orFatal_ok, orFatal_ok]
    exact congrArg (endRead s) (cartRead_congr fun _ => (mbc1Read_xram hlo hhi).symm)

/-- R93 and R94 for a read: the decode and the routing table make the same tests in the same order. -/
theorem decodeRead_readsAs_topRead : ReadsAs s (decodeRead s.mode a) (topRead s (newAddress a)) := by
  rw [decodeRead_eq, topRead_eq]
  refine rel_ite (fun _ => ?bios) fun _ => rel_ite (fun h => ?cartLow) fun _ => rel_ite (fun _ => ?vram) fun _ =>
    rel_ite (fun h => ?cartHigh) fun _ => rel_ite (fun _ => ?wram) fun _ => rel_ite (fun _ => ?echo) fun _ =>
    rel_ite (fun _ => ?oam) fun _ => rel_ite (fun _ => ?hole) fun _ => rel_ite (fun h => ?io) fun _ =>
    rel_ite (fun _ => ?hram) fun _ => ?top
  case bios | vram | wram | echo | oam | hole | hram | top => rfl
  case cartLow => exact readsAs_cart_low h
  case cartHigh => exact readsAs_cart_high (by omega) h
  case io =>
    have hlo : 0xFF00 ≤ a.toNat := by omega
    rw [ioRead_window hlo h]
    exact rel_ite (fun _ => exec_rdIoBoot) fun _ => exec_rdIoStub hlo h

theorem writesAs_cart_low (h : a.toNat ≤ 0x7FFF) :
    WritesAs s (if s.mode.cart = .none then .wrNocart a d else if a.toNat ≤ 0x1FFF then .wrRamen a d
      else if a.toNat ≤ 0x3FFF then .wrRomb a d else if a.toNat ≤ 0x5FFF then .wrBankset a d else .wrMode a d)
      (cartWrite s (newAddress a) fun c x => mbc1Write c x d) := by
  split_ifs with hk h1 h2 h3
  · rw [cartWrite_none _ _ (Cart.kind_eq_none.mp hk)]
    exact exec_wrNocart (.inl h)
  · exact congrArg (endWrite s) (cartWrite_congr fun _ => (mbc1Write_ramen h1).symm)
  · exact congrArg (endWrite s) (cartWrite_congr fun _ => (mbc1Write_romb (Nat.lt_of_not_le h1) h2).symm)
  · exact congrArg (endWrite s) (cartWrite_congr fun _ => (mbc1Write_bankset (Nat.lt_of_not_le h2) h3).symm)
  · exact congrArg (endWrite s) (cartWrite_congr fun _ => (mbc1Write_mode (Nat.lt_of_not_le h3) h).symm)

theorem writesAs_cart_high (h : 0xA000 ≤ a.toNat) (h' : a.toNat ≤ 0xBFFF) :
    WritesAs s (if s.mode.cart = .none then .wrNocart a d else .wrXram a d)
      (orFatal (reoffset (newAddress a) 0x2000) fun x => cartWrite s x fun c y => mbc1Write c y d) := by
  obtain ⟨hx, hrel⟩ := reoffset_xram h
  have hlo : 0x8000 ≤ (a - 0x2000).toNat := by omega
  have hhi : (a - 0x2000).toNat ≤ 0x9FFF := by omega
  split_ifs with hk
  · rw [hx, orFatal_ok, cartWrite_none _ _ (Cart.kind_eq_none.mp hk)]
    exact exec_wrNocart (.inr h)
  · rw [WritesAs, exec, execWrXram, hx, orFatal_ok, orFatal_ok]
    exact congrArg (endWrite s) (cartWrite_congr fun _ => (mbc1Write_xram hlo hhi).symm)

/-- R93 and R94 for a write. -/
theorem decodeWrite_writesAs_topWrite : WritesAs s (decodeWrite s.mode a d) (topWrite s (newAddress a) d) := by
  rw [decodeWrite_eq, topWrite_eq]
  refine rel_ite (fun _ => ?bios) fun _ => rel_ite (fun h => ?cartLow) fun _ => rel_ite (fun _ => ?vram) fun _ =>
    rel_ite (fun h => ?cartHigh) fun _ => rel_ite (fun _ => ?wram) fun _ => rel_ite (fun _ => ?echo) fun _ =>
    rel_ite (fun _ => ?oam) fun _ => rel_ite (fun _ => ?hole) fun _ => rel_ite (fun h => ?io) fun _ =>
    rel_ite (fun _ => ?hram) fun _ => ?top
  case bios | vram | wram | echo | oam | hole | hram | top => rfl
  case cartLow => exact writesAs_cart_low h
  case cartHigh => exact writesAs_cart_high (by omega) h
  case io =>
    have hlo : 0xFF00 ≤ a.toNat := by omega
    rw [ioWrite_window hlo h]
    exact rel_ite (fun _ => exec_wrIoBoot) fun _ => exec_wrIoStub hlo h

end RoutingTable

section BiosUnmap

/-! ## The unmapping of the bios (R121, R194) -/

variable {s t : State} {c : Mbc1} {a : Addr} {d : Byte}

theorem transact_write_bios (hb : s.biosEnabled = true) (h : a.toNat ≤ 0x00FF) : transact (.write a d) s = .next s := by
  rw [transact_eq, decode, decodeWrite_bios hb h, exec_wrBios h]

/-- A write of an odd byte to the latch clears it and changes nothing else (R194). -/
theorem transact_write_boot_odd (hd : d.toNat % 2 = 1) :
    transact (.write 0xFF50 d) s = .next { s with biosEnabled := false } := by
  have hclear : biosEnabledAfter s.biosEnabled d = false := if_pos ((bit0_eq d).trans (decide_eq_true hd))
  rw [transact_eq, decode, decodeWrite_boot rfl, exec_wrIoBoot, hclear]

/-- With the latch clear the bios's addresses read the ROM's bank 0 (R121, R158). -/
theorem State.lowByte_unmapped (hs : s.biosEnabled = false) (rom : Memory) (bank : BitVec 7) (h : a.toNat ≤ 0x3FFF) :
    s.lowByte rom bank a = Memory.read rom a.toNat := by
  simp [State.lowByte, hs, h]

end BiosUnmap

/-! ## The obligations -/

/-- Settles O45: decode and routing table agree test by test, and each operation is its row of the table. -/
theorem operationsAgreeWithTheRoutingTables : Obligations.OperationsAgreeWithTheRoutingTables := by
  intro t s
  rw [transact_eq]
  cases t with
  | read a => exact decodeRead_readsAs_topRead
  | write a d => exact decodeWrite_writesAs_topWrite

/-- Settles O52: a mapped write is WR_BIOS; after the write of the latch a read below 0x0100 is RD_ROM0. -/
theorem unmappingTheBiosExposesTheCartridge : Obligations.UnmappingTheBiosExposesTheCartridge := by
  intro s t c a d hc ha
  refine ⟨fun hb => transact_write_bios hb ha, fun hd h => ?_⟩
  obtain rfl := Host.Outcome.next.inj (h.symm.trans (transact_write_boot_odd hd))
  have hread : transact (.read a) { s with biosEnabled := false } = _ := transact_read_low hc (ha.trans (by decide))
  rw [hread, State.lowByte_unmapped rfl _ _ (ha.trans (by decide))]

end Sys2Proof.Machine

/-! PROOFS. Plain memory (R124 to R137): what each address range decodes to, and what the operation then does. -/

namespace Sys2Proof.Machine

section BiosUnmapped

/-! ## The bios's addresses once it is unmapped (R94, R104) -/

variable {m : Mode} {a : Addr} {d : Byte}

theorem decodeRead_bios_unmapped (hb : m.biosEnabled = false) (h : a.toNat ≤ 0x00FF) :
    decodeRead m a = if m.cart = .none then .rdNocart a else .rdRom0 a := by
  have hnot : ¬(a.toNat ≤ 0x00FF ∧ m.biosEnabled = true) := by simp [hb]
  split_ifs with hk
  · exact decodeRead_nocart_low hk hnot (h.trans (by decide))
  · exact decodeRead_rom0 (CartKind.eq_mbc1_of_ne_none hk) hnot (h.trans (by decide))

theorem decodeWrite_bios_unmapped (hb : m.biosEnabled = false) (h : a.toNat ≤ 0x00FF) :
    decodeWrite m a d = if m.cart = .none then .wrNocart a d else .wrRamen a d := by
  have hnot : ¬(a.toNat ≤ 0x00FF ∧ m.biosEnabled = true) := by simp [hb]
  split_ifs with hk
  · exact decodeWrite_nocart_low hk hnot (h.trans (by decide))
  · exact decodeWrite_ramen (CartKind.eq_mbc1_of_ne_none hk) hnot (h.trans (by decide))

end BiosUnmapped

section Mirror

/-! ## Working RAM and its mirror as whole transactions (R128 to R131) -/

variable {s : State} {a : Addr} {d : Byte}

theorem transact_read_wram (h : 0xC000 ≤ a.toNat) (h' : a.toNat ≤ 0xDFFF) :
    transact (.read a) s = .next (s.deliver (Memory.read s.wram (a.toNat - 0xC000))) := by
  rw [transact_eq, decode, decodeRead_wram h h', exec_rdWram h h']

theorem transact_read_echo (h : 0xE000 ≤ a.toNat) (h' : a.toNat ≤ 0xFDFF) :
    transact (.read a) s = .next (s.deliver (Memory.read s.wram (a.toNat - 0xE000))) := by
  rw [transact_eq, decode, decodeRead_echo h h', exec_rdEcho h h']

theorem transact_write_wram (h : 0xC000 ≤ a.toNat) (h' : a.toNat ≤ 0xDFFF) :
    transact (.write a d) s = .next { s with wram := Memory.write s.wram (a.toNat - 0xC000) d } := by
  rw [transact_eq, decode, decodeWrite_wram h h', exec_wrWram h h']

theorem transact_write_echo (h : 0xE000 ≤ a.toNat) (h' : a.toNat ≤ 0xFDFF) :
    transact (.write a d) s = .next { s with wram := Memory.write s.wram (a.toNat - 0xE000) d } := by
  rw [transact_eq, decode, decodeWrite_echo h h', exec_wrEcho h h']

/-- Up to 0xDDFF the address 0x2000 above is one of the mirror's, at the same offset in working RAM. -/
theorem mirror_bounds (h : 0xC000 ≤ a.toNat) (h' : a.toNat ≤ 0xDDFF) :
    0xE000 ≤ (a + 0x2000).toNat ∧ (a + 0x2000).toNat ≤ 0xFDFF ∧ (a + 0x2000).toNat - 0xE000 = a.toNat - 0xC000 := by
  have hadd : (a + 0x2000).toNat = a.toNat + 0x2000 :=
    BitVec.toNat_add_of_lt (show a.toNat + 0x2000 < 0x10000 by omega)
  omega

theorem transact_read_mirror (h : 0xC000 ≤ a.toNat) (h' : a.toNat ≤ 0xDDFF) :
    transact (.read (a + 0x2000)) s = transact (.read a) s := by
  obtain ⟨hlo, hhi, hoff⟩ := mirror_bounds h h'
  rw [transact_read_echo hlo hhi, transact_read_wram h (h'.trans (by decide)), hoff]

theorem transact_write_mirror (h : 0xC000 ≤ a.toNat) (h' : a.toNat ≤ 0xDDFF) :
    transact (.write (a + 0x2000) d) s = transact (.write a d) s := by
  obtain ⟨hlo, hhi, hoff⟩ := mirror_bounds h h'
  rw [transact_write_echo hlo hhi, transact_write_wram h (h'.trans (by decide)), hoff]

end Mirror

/-! ## The obligations -/

/-- Settles O18: while mapped RD_BIOS and WR_BIOS complete below 0x0100; once unmapped the cartridge's kind decides. -/
theorem biosReadsAndDropsWrites : Obligations.BiosReadsAndDropsWrites :=
  fun _ _ _ h =>
    ⟨fun hb => ⟨⟨decodeRead_bios hb h, exec_rdBios h⟩, decodeWrite_bios hb h, exec_wrBios h⟩,
      fun hb => ⟨decodeRead_bios_unmapped hb h, decodeWrite_bios_unmapped hb h⟩⟩

/-- Settles O19: the range is video RAM's in every mode, and inside it neither check fails. -/
theorem videoRamReadsAndWrites : Obligations.VideoRamReadsAndWrites :=
  fun _ _ _ h h' => ⟨⟨decodeRead_vram h h', exec_rdVram h h'⟩, decodeWrite_vram h h', exec_wrVram h h'⟩

/-- Settles O20: the range is working RAM's, and the mirror's transactions reach the same offset of the same store. -/
theorem workingRamReadsAndWrites : Obligations.WorkingRamReadsAndWrites :=
  fun _ _ _ h h' =>
    ⟨⟨decodeRead_wram h h', exec_rdWram h h'⟩, ⟨decodeWrite_wram h h', exec_wrWram h h'⟩,
      fun hm => ⟨transact_read_mirror h hm, transact_write_mirror h hm⟩⟩

/-- Settles O21: the range is the mirror's, and its re-offset leads into working RAM. -/
theorem echoReadsAndWritesWorkingRam : Obligations.EchoReadsAndWritesWorkingRam :=
  fun _ _ _ h h' => ⟨⟨decodeRead_echo h h', exec_rdEcho h h'⟩, decodeWrite_echo h h', exec_wrEcho h h'⟩

/-- Settles O22: the range is the sprite table's 160 bytes. -/
theorem spriteTableReadsAndWrites : Obligations.SpriteTableReadsAndWrites :=
  fun _ _ _ h h' => ⟨⟨decodeRead_oam h h', exec_rdOam h h'⟩, decodeWrite_oam h h', exec_wrOam h h'⟩

/-- Settles O23: both holes are the row of RD_UNMAPPED and WR_UNMAPPED, which look at no store. -/
theorem unmappedHolesReadZeroAndDiscard : Obligations.UnmappedHolesReadZeroAndDiscard :=
  fun _ a d h =>
    have hole : a.unmapped = true := Addr.unmapped_iff.mpr h
    ⟨⟨decode_encode (i := .rdUnmapped a) hole, exec_rdUnmapped⟩, decode_encode (i := .wrUnmapped a d) hole,
      exec_wrUnmapped⟩

/-- Settles O24: the range is high RAM's 127 bytes. -/
theorem highRamReadsAndWrites : Obligations.HighRamReadsAndWrites :=
  fun _ _ _ h h' => ⟨⟨decodeRead_hram h h', exec_rdHram h h'⟩, decodeWrite_hram h h', exec_wrHram h h'⟩

end Sys2Proof.Machine

/-! PROOFS. The cartridge (R150 to R169): the effective banks under the register invariants of R32, the MBC1's window,
and what each cartridge range decodes to and then does. -/

namespace Sys2Proof.Machine

section LegalRegisters

/-! ## The effective banks with legal registers (R32, R156, R157) -/

variable {c : Mbc1}

/-- Bits 4:0 of the effective ROM bank are `rom_bank`, which is never 0 (R32). -/
theorem effRomBank_mod_ne_zero (hl : c.regsLegal = true) : c.effRomBank.toNat % 32 ≠ 0 := by
  obtain ⟨hrom, -, -⟩ := Mbc1.regsLegal_iff.mp hl
  have hne : c.romBank.toNat ≠ 0 := fun h => hrom (BitVec.eq_of_toNat_eq h)
  have hlt : c.romBank.toNat < 32 := c.romBank.isLt
  rw [effRomBank_toNat]
  omega

theorem effRomBank_of_ramMode (hm : c.ramMode = true) : c.effRomBank.toNat = c.romBank.toNat := by
  rw [effRomBank_toNat, if_pos hm, Nat.zero_mul, Nat.zero_add]

theorem effRomBank_of_not_ramMode (hm : c.ramMode = false) :
    c.effRomBank.toNat = c.bankSet.toNat * 32 + c.romBank.toNat := by
  simp [effRomBank_toNat, hm]

theorem effRamBank_of_ramMode (hm : c.ramMode = true) : c.effRamBank = c.bankSet := if_pos hm

theorem effRamBank_of_not_ramMode (hm : c.ramMode = false) : c.effRamBank = 0 := by
  simp [Mbc1.effRamBank, hm]

/-- In mode 0 a bank number's low five bits as `rom_bank` and its high two as `bank_set` select that bank (R156). -/
theorem effRomBank_of_bits (b : BitVec 7) :
    { c with romBank := b.setWidth 5, bankSet := (b >>> 5).setWidth 2, ramMode := false : Mbc1 }.effRomBank = b := by
  have hb : b.toNat < 128 := b.isLt
  apply BitVec.eq_of_toNat_eq
  rw [effRomBank_of_not_ramMode rfl, BitVec.toNat_setWidth, BitVec.toNat_setWidth, BitVec.toNat_ushiftRight,
    Nat.shiftRight_eq_div_pow]
  omega

/-- The low five bits of a bank that is no multiple of 32 are not 0. -/
theorem lowBits_ne_zero {b : BitVec 7} (hb : b.toNat % 32 ≠ 0) : b.setWidth 5 ≠ 0 := by
  intro h
  exact hb (by simpa using congrArg BitVec.toNat h)

/-- A cartridge without RAM has both RAM flags clear (R32, R169). -/
theorem ramFlags_eq_false (hl : c.regsLegal = true) (hr : c.hasRam = false) :
    c.ramEnable = false ∧ c.ramMode = false := by
  obtain ⟨-, hen, hmode⟩ := Mbc1.regsLegal_iff.mp hl
  simp only [hr, Bool.false_eq_true, imp_false, Bool.not_eq_true] at hen hmode
  exact ⟨hen, hmode⟩

end LegalRegisters

section Devices

/-! ## The read-only wrapper and the MBC1's window at their bounds (R66, R153) -/

variable {c : Mbc1} {x : Address} {a : Addr} {d : Byte}

/-- R66 outside the array: the inner read's fatal. -/
theorem roWrite_of_ge {σ : Type} {dev : Device} {m : Memory} (s : σ) (h : dev.size ≤ x.rel.toNat) :
    roWrite dev m x s = .error (.deviceOutOfRange dev x.raw x.rel dev.size) := by
  rw [roWrite, arrRead_of_ge h, orFatal_error]

/-- R97: each row of the read table completes in its own range. -/
theorem mbc1Read_completes (h : x.rel.toNat ≤ 0x9FFF) : ∃ v, mbc1Read c x = .ok v := by
  by_cases h0 : x.rel.toNat ≤ 0x3FFF
  · exact ⟨_, (mbc1Read_rom0 h0).trans (arrRead_of_lt (Nat.lt_succ_of_le h0))⟩
  by_cases h1 : x.rel.toNat ≤ 0x7FFF
  · have hlo : 0x4000 ≤ x.rel.toNat := by omega
    exact ⟨_, (mbc1Read_romx hlo h1).trans (regionRead_eq hlo (show x.rel.toNat - 0x4000 < 0x4000 by omega))⟩
  · have hlo : 0x8000 ≤ x.rel.toNat := by omega
    rw [mbc1Read_xram hlo h]
    split_ifs
    · exact ⟨_, regionRead_eq hlo (show x.rel.toNat - 0x8000 < 0x2000 by omega)⟩
    · exact ⟨_, rfl⟩

/-- R98: each row of the write table completes in its own range. -/
theorem mbc1Write_completes (h : x.rel.toNat ≤ 0x9FFF) : ∃ c', mbc1Write c x d = .ok c' := by
  by_cases h0 : x.rel.toNat ≤ 0x1FFF
  · exact ⟨_, mbc1Write_ramen h0⟩
  by_cases h1 : x.rel.toNat ≤ 0x3FFF
  · exact ⟨_, mbc1Write_romb (Nat.lt_of_not_le h0) h1⟩
  by_cases h2 : x.rel.toNat ≤ 0x5FFF
  · exact ⟨_, mbc1Write_bankset (Nat.lt_of_not_le h1) h2⟩
  by_cases h3 : x.rel.toNat ≤ 0x7FFF
  · exact ⟨_, mbc1Write_mode (Nat.lt_of_not_le h2) h3⟩
  · have hlo : 0x8000 ≤ x.rel.toNat := by omega
    rw [mbc1Write_xram hlo h]
    split_ifs
    · exact ⟨_, regionWrite_eq hlo (show x.rel.toNat - 0x8000 < 0x2000 by omega)⟩
    · exact ⟨_, rfl⟩

theorem mbc1Read_outOfRange (h : 0x9FFF < x.rel.toNat) : mbc1Read c x = .error (mbc1OutOfRange x) := by
  simp (disch := omega) only [mbc1Read_eq, if_neg]

theorem mbc1Write_outOfRange (h : 0x9FFF < x.rel.toNat) : mbc1Write c x d = .error (mbc1OutOfRange x) := by
  simp (disch := omega) only [mbc1Write_eq, if_neg]

/-- Both cartridge windows of the top level lie inside the MBC1's (R93, R99). -/
theorem cartAddress_inside (h : a.toNat ≤ 0x7FFF ∨ 0xA000 ≤ a.toNat ∧ a.toNat ≤ 0xBFFF) :
    ∃ x, cartAddress a = .ok x ∧ x.raw = a ∧ x.rel.toNat ≤ 0x9FFF := by
  rcases h with h | ⟨h, h'⟩
  · exact ⟨_, cartAddress_low h, rfl, h.trans (by decide)⟩
  · obtain ⟨hx, hrel⟩ := reoffset_xram h
    exact ⟨_, (cartAddress_high h).trans hx, rfl, show (a - 0x2000).toNat ≤ 0x9FFF by omega⟩

end Devices

section CartridgeTransactions

/-! ## The cartridge's operations as whole transactions -/

variable {s : State} {c : Mbc1} {a : Addr} {d : Byte}

theorem mode_cart_of_mbc1 (hc : s.cart = .mbc1 c) : s.mode.cart = .mbc1 := Cart.kind_eq_mbc1.mpr ⟨c, hc⟩

theorem transact_read_romx (hc : s.cart = .mbc1 c) (h : 0x4000 ≤ a.toNat) (h' : a.toNat ≤ 0x7FFF) :
    transact (.read a) s =
      .next (s.deliver (Memory.read c.rom (c.effRomBank.toNat * 0x4000 + (a.toNat - 0x4000)))) := by
  rw [transact_eq, decode, decodeRead_romx (mode_cart_of_mbc1 hc) h h', exec_rdRomx hc h h']

theorem transact_write_romb (hc : s.cart = .mbc1 c) (h : 0x2000 ≤ a.toNat) (h' : a.toNat ≤ 0x3FFF) :
    transact (.write a d) s = .next { s with cart := .mbc1 { c with romBank := romBankField d } } := by
  rw [transact_eq, decode, decodeWrite_romb (mode_cart_of_mbc1 hc) h h', exec_wrRomb hc]

theorem transact_write_mode (hc : s.cart = .mbc1 c) (h : 0x6000 ≤ a.toNat) (h' : a.toNat ≤ 0x7FFF) :
    transact (.write a d) s = .next { s with cart := .mbc1 { c with ramMode := ramModeAfter c.hasRam d } } := by
  rw [transact_eq, decode, decodeWrite_mode (mode_cart_of_mbc1 hc) h h', exec_wrMode hc]

/-- With RAM disabled the RAM window reads 0x00 (R160). -/
theorem exec_rdXram_disabled (hc : s.cart = .mbc1 c) (hen : c.ramEnable = false) (h : 0xA000 ≤ a.toNat)
    (h' : a.toNat ≤ 0xBFFF) : exec (.rdXram a) s = .next (s.deliver 0x00) := by
  rw [exec_rdXram hc h h', hen]
  rfl

/-- With RAM disabled a read of the RAM window delivers 0x00 and a write leaves the state (R160, R165). -/
theorem transact_xram_disabled (hc : s.cart = .mbc1 c) (hen : c.ramEnable = false) (h : 0xA000 ≤ a.toNat)
    (h' : a.toNat ≤ 0xBFFF) :
    transact (.read a) s = .next (s.deliver 0x00) ∧ transact (.write a d) s = .next s := by
  have hk := mode_cart_of_mbc1 hc
  have gate : (c.hasRam && c.ramEnable) ≠ true := by simp [hen]
  rw [transact_eq, transact_eq, decode, decode, decodeRead_xram hk h h', decodeWrite_xram hk h h']
  exact ⟨exec_rdXram_disabled hc hen h h', exec_wrXram_discarded hc gate h⟩

end CartridgeTransactions

/-! ## The obligations -/

/-- Settles O41: the idle step holds the state, and every operation's effect keeps a legal state legal. -/
theorem stepKeepsLegal : Obligations.StepKeepsLegal := fun _ _ => step_keeps_legal

/-- Settles O53: WR_ROMB leaves the field of D in the register, and RD_ROMX computes the bank from it. -/
theorem bankSwitchIsSeenByTheNextRead : Obligations.BankSwitchIsSeenByTheNextRead := by
  intro s t c a b d hc ha ha' hb hb' h
  obtain rfl := Host.Outcome.next.inj (h.symm.trans (transact_write_romb hc ha ha'))
  rw [transact_read_romx rfl hb hb', effRomBank_toNat, romBankField_toNat]

/-- Settles O55: bits 4:0 are `rom_bank`, never 0; and any bank's own bits are registers that select it in mode 0. -/
theorem reachableRomBanks : Obligations.ReachableRomBanks := by
  refine ⟨fun c hl => ⟨effRomBank_mod_ne_zero hl, fun hm => ?mode1⟩, fun c b hl hb => ?reached⟩
  case mode1 =>
    rw [effRomBank_of_ramMode hm]
    exact c.romBank.isLt
  case reached =>
    obtain ⟨-, hen, -⟩ := Mbc1.regsLegal_iff.mp hl
    exact ⟨b.setWidth 5, (b >>> 5).setWidth 2, Mbc1.regsLegal_iff.mpr ⟨lowBits_ne_zero hb, hen, nofun⟩,
      effRomBank_of_bits b⟩

/-- Settles O56: R32 clears both RAM flags, and with them clear the banks and the window are those of mode 0. -/
theorem cartridgeWithoutRam : Obligations.CartridgeWithoutRam := by
  intro s c a d hc hl hr
  obtain ⟨hen, hmode⟩ := ramFlags_eq_false hl hr
  exact ⟨hen, hmode, effRamBank_of_not_ramMode hmode, effRomBank_of_not_ramMode hmode,
    fun h h' => transact_xram_disabled hc hen h h'⟩

/-- Settles O13: every address is inside the null device, and the wrapper's inner read alone can fail. -/
theorem nullAndReadOnlyDevicesDiscardWrites : Obligations.NullAndReadOnlyDevicesDiscardWrites :=
  ⟨fun a s => ⟨nullRead_eq a, nullWrite_eq a s⟩, fun _ _ _ s => ⟨roWrite_of_lt s, roWrite_of_ge s⟩⟩

/-- Settles O15: the tables' rows fill the window and complete in it, and the re-offset leads into it. -/
theorem mbc1WindowIsChecked : Obligations.Mbc1WindowIsChecked :=
  ⟨fun _ _ _ => ⟨fun h => ⟨mbc1Read_completes h, mbc1Write_completes h⟩,
    fun h => ⟨mbc1Read_outOfRange h, mbc1Write_outOfRange h⟩⟩, fun _ => cartAddress_inside⟩

/-- Settles O25: both windows are the row of RD_NOCART and WR_NOCART, which meet the null device. -/
theorem noCartridgeReadsZeroAndDiscards : Obligations.NoCartridgeReadsZeroAndDiscards := by
  intro s a d hc h
  have hk : s.mode.cart = .none := Cart.kind_eq_none.mpr hc
  have hrow : (s.mode.cart == .none && s.mode.cartWindow a) = true :=
    cartRow_iff.mpr ⟨hk, Mode.cartWindow_iff.mpr h⟩
  have hwindow : a.toNat ≤ 0x7FFF ∨ 0xA000 ≤ a.toNat := h.imp And.right And.left
  exact ⟨⟨decode_encode (i := .rdNocart a) hrow, exec_rdNocart hwindow⟩,
    decode_encode (i := .wrNocart a d) hrow, exec_wrNocart hwindow⟩

/-- Settles O26: RD_ROM0 names bank 0 itself. -/
theorem fixedRomBankReads : Obligations.FixedRomBankReads :=
  fun _ _ _ hc hb h => ⟨decodeRead_rom0 (mode_cart_of_mbc1 hc) (not_under_bios hb) h, exec_rdRom0 hc h⟩

/-- Settles O27: the bank is `EffRomBank()` as a number. -/
theorem switchableRomBankReads : Obligations.SwitchableRomBankReads := by
  intro s c a hc h h'
  rw [← effRomBank_toNat]
  exact ⟨decodeRead_romx (mode_cart_of_mbc1 hc) h h', exec_rdRomx hc h h', effRomBank_mod_ne_zero⟩

/-- Settles O28: the bank is `EffRamBank()` as a number, and legal registers without RAM have it disabled. -/
theorem cartridgeRamReads : Obligations.CartridgeRamReads := by
  intro s c a hc h h'
  rw [← effRamBank_toNat]
  exact ⟨decodeRead_xram (mode_cart_of_mbc1 hc) h h', exec_rdXram hc h h',
    fun hl hr => exec_rdXram_disabled hc (ramFlags_eq_false hl hr).1 h h'⟩

/-- Settles O29: the key of WR_RAMEN is D mod 16. -/
theorem ramEnableRegisterWrite : Obligations.RamEnableRegisterWrite := by
  intro s c a d hc hb h
  rw [← ramEnableKey_eq]
  exact ⟨decodeWrite_ramen (mode_cart_of_mbc1 hc) (not_under_bios hb) h, exec_wrRamen hc⟩

/-- Settles O30: the field of WR_ROMB as a number. -/
theorem romBankRegisterWrite : Obligations.RomBankRegisterWrite := by
  intro s c a d hc h h'
  rw [← romBankField_eq]
  exact ⟨decodeWrite_romb (mode_cart_of_mbc1 hc) h h', exec_wrRomb hc⟩

/-- Settles O31: the field of WR_BANKSET as a number. -/
theorem bankSetRegisterWrite : Obligations.BankSetRegisterWrite := by
  intro s c a d hc h h'
  rw [← bankSetField_eq]
  exact ⟨decodeWrite_bankset (mode_cart_of_mbc1 hc) h h', exec_wrBankset hc⟩

/-- Settles O32: D[0] is whether D is odd. -/
theorem modeRegisterWrite : Obligations.ModeRegisterWrite := by
  intro s c a d hc h h'
  rw [← bit0_eq]
  exact ⟨decodeWrite_mode (mode_cart_of_mbc1 hc) h h', exec_wrMode hc⟩

/-- Settles O33: the two sides of WR_XRAM's gate, which R32 makes `ram_enable` alone. -/
theorem cartridgeRamWrites : Obligations.CartridgeRamWrites := by
  intro s c a d hc h h'
  refine ⟨decodeWrite_xram (mode_cart_of_mbc1 hc) h h', ?exec, fun hl => ?gate⟩
  case exec =>
    rw [← effRamBank_toNat]
    split_ifs with gate
    · exact exec_wrXram hc (Bool.and_eq_true_iff.mpr gate) h h'
    · exact exec_wrXram_discarded hc (mt Bool.and_eq_true_iff.mp gate) h
  case gate =>
    obtain ⟨-, hen, -⟩ := Mbc1.regsLegal_iff.mp hl
    exact and_iff_right_of_imp hen

/-- Settles O57: with RAM an odd byte sets the mode, and in mode 1 `bank_set` goes to the RAM window alone. -/
theorem modeSwitchMovesBothWindows : Obligations.ModeSwitchMovesBothWindows := by
  intro s c a d hc hr h h' hd
  have hmode : ramModeAfter c.hasRam d = true := by rw [ramModeAfter, hr, bit0_eq, decide_eq_true hd, Bool.true_and]
  exact ⟨_, transact_write_mode hc h h', effRomBank_of_ramMode hmode, effRamBank_of_ramMode hmode⟩

end Sys2Proof.Machine

/-! PROOFS. The I/O block (R190 to R194): the stub offsets and the bios latch. -/

namespace Sys2Proof.Machine

/-- The latch after a write, by the parity of the byte (R194). -/
theorem biosEnabledAfter_eq (b : Bool) (d : Byte) : biosEnabledAfter b d = if d.toNat % 2 = 1 then false else b := by
  simp only [biosEnabledAfter, bit0_eq, decide_eq_true_eq]

/-- Settles O34: outside the latch the window is the stubs', and inside it the re-offset and the bound pass. -/
theorem ioStubsReadOnesAndIgnoreWrites : Obligations.IoStubsReadOnesAndIgnoreWrites :=
  fun _ _ _ h h' hne =>
    ⟨⟨decodeRead_stub h h' hne, exec_rdIoStub h h'⟩, decodeWrite_stub h h' hne, exec_wrIoStub h h'⟩

/-- Settles O35: the latch's one address decodes to it in every mode; after an even byte the latch is as it was. -/
theorem biosLatchReadsAndClears : Obligations.BiosLatchReadsAndClears := by
  intro s d
  refine ⟨⟨decodeRead_boot rfl, exec_rdIoBoot⟩, decodeWrite_boot rfl, ?write⟩
  case write =>
    rw [exec_wrIoBoot, biosEnabledAfter_eq]
    split_ifs
    · rfl
    · rfl

end Sys2Proof.Machine

/-! PROOFS. The fatal state (R203, R206): the fatal alone among the effects changes the fault record, and construction's
one check. -/

namespace Sys2Proof.Machine

/-- An operation's effect that changes the fault record is a fatal's, and a fatal saves its record alone (R206). -/
theorem Effect.eq_enterFatal_of_fault_ne {i : Instr} {s t : State} (he : Effect s i t) (hne : t.fault ≠ s.fault) :
    ∃ f, t = s.enterFatal f := by
  cases he with
  | fatal f => exact ⟨f, rfl⟩
  | delivered | discarded | vram | wram | echo | oam | hram | ramen | romb | bankset | mode | xram | boot =>
    exact absurd rfl hne

section ConstructionCheck

variable {image : List Byte}

/-- R231 for an image of another length: the error of code 1 with the actual length (R203). -/
theorem construct_of_length_ne (cart : LoadedCart) (init : InitRam) (h : image.length ≠ Config.biosSize) :
    construct image cart init = .error (.biosSizeMismatch image.length) :=
  if_pos h

/-- R230 is reached with any cartridge and any initial content. -/
theorem construct_of_length_eq (cart : LoadedCart) (init : InitRam) (h : image.length = Config.biosSize) :
    ∃ s, construct image cart init = .ok s :=
  ⟨_, if_neg (not_not.mpr h)⟩

end ConstructionCheck

/-! ## The obligations -/

/-- Settles O16: every operation's outcome is one of its effects, and the fatal is the one that changes the record. -/
theorem fatalEntrySavesTheRecordOnly : Obligations.FatalEntrySavesTheRecordOnly :=
  fun _ _ _ h hne => (exec_effect h).eq_enterFatal_of_fault_ne hne

/-- Settles O59: the two branches of `construct`. -/
theorem constructionChecksTheBiosSize : Obligations.ConstructionChecksTheBiosSize :=
  fun _ cart init => ⟨construct_of_length_ne cart init, construct_of_length_eq cart init⟩

end Sys2Proof.Machine

/-! PROOFS. The opcode table (R107): its rows as ranges of decode words that lie end to end in each mode, and the one
name that the decode gives along a row. -/

namespace Sys2Proof

/-! ## The rows of the opcode table as ranges of decode words (R107) -/

/-- How many of the low bits a row's mask leaves out. -/
def OpcodeRow.freeBits (r : OpcodeRow) : Nat := Nat.log2 (2 ^ 17 - r.mask.toNat)

/-- How many decode words a row's mask leaves together. -/
def OpcodeRow.span (r : OpcodeRow) : Nat := 2 ^ r.freeBits

/-- The word is one of the `span` decode words from the row's match on. -/
def OpcodeRow.covers (dw : BitVec 17) (r : OpcodeRow) : Bool :=
  decide (r.bits.toNat ≤ dw.toNat) && decide (dw.toNat < r.bits.toNat + r.span)

theorem OpcodeRow.covers_iff {r : OpcodeRow} {dw : BitVec 17} :
    r.covers dw = true ↔ r.bits.toNat ≤ dw.toNat ∧ dw.toNat < r.bits.toNat + r.span := by
  simp [OpcodeRow.covers]

/-- Every mask of the table leaves out low bits alone, and the row's match has these bits zero. -/
theorem opcodeTable_aligned :
    ∀ r ∈ opcodeTable, r.mask = BitVec.allOnes 17 <<< r.freeBits ∧ r.bits.toNat % 2 ^ r.freeBits = 0 := by
  decide

/-- A row of the table applies to the words of its range, in the modes that it admits. -/
theorem OpcodeRow.applies_eq {r : OpcodeRow} (hr : r ∈ opcodeTable) (m : Mode) (dw : BitVec 17) :
    r.applies m dw = (r.covers dw && r.admits m) := by
  obtain ⟨hmask, hbits⟩ := opcodeTable_aligned r hr
  have hquot : dw.toNat / r.span = r.bits.toNat / r.span ↔
      r.bits.toNat ≤ dw.toNat ∧ dw.toNat < r.bits.toNat + r.span := by
    have hpos : 0 < r.span := Nat.two_pow_pos _
    have hmul : r.bits.toNat / r.span * r.span = r.bits.toNat := Nat.div_mul_cancel (Nat.dvd_of_mod_eq_zero hbits)
    rw [Nat.div_eq_iff hpos, hmul]
    omega
  have hcovers : (dw &&& r.mask == r.bits) = r.covers dw := by
    rw [Bool.eq_iff_iff, beq_iff_eq, mask_eq_iff hmask hbits, OpcodeRow.covers_iff]
    exact hquot
  rw [OpcodeRow.applies, hcovers]

/-! ## In each mode the rows lie end to end -/

/-- The rows lie end to end, from the word `lo` on up to `hi`. -/
def tiles (lo hi : Nat) : List OpcodeRow → Bool
  | [] => lo == hi
  | r :: rs => r.bits.toNat == lo && tiles (lo + r.span) hi rs

theorem tiles_cons {lo hi : Nat} {r : OpcodeRow} {rs : List OpcodeRow} :
    tiles lo hi (r :: rs) = true ↔ r.bits.toNat = lo ∧ tiles (lo + r.span) hi rs = true := by
  rw [tiles, Bool.and_eq_true, beq_iff_eq]

/-- A row that begins above the word does not cover it, so none of the rows from there on does. -/
theorem filter_covers_eq_nil {lo hi : Nat} {rs : List OpcodeRow} {dw : BitVec 17} (h : tiles lo hi rs = true)
    (hdw : dw.toNat < lo) : rs.filter (OpcodeRow.covers dw) = [] := by
  induction rs generalizing lo with
  | nil => rfl
  | cons r rs ih =>
    obtain ⟨hlo, hrs⟩ := tiles_cons.mp h
    have hr : ¬r.covers dw = true := by rw [OpcodeRow.covers_iff]; omega
    rw [List.filter_cons_of_neg hr]
    exact ih hrs (by omega)

/-- Of rows that lie end to end exactly one covers a word between their ends. -/
theorem filter_covers_eq_singleton {lo hi : Nat} {rs : List OpcodeRow} {dw : BitVec 17} (h : tiles lo hi rs = true)
    (hlo : lo ≤ dw.toNat) (hhi : dw.toNat < hi) : ∃ r, rs.filter (OpcodeRow.covers dw) = [r] := by
  induction rs generalizing lo with
  | nil => simp only [tiles, beq_iff_eq] at h; omega
  | cons r rs ih =>
    obtain ⟨hr, hrs⟩ := tiles_cons.mp h
    by_cases hend : dw.toNat < lo + r.span
    · have hcov : r.covers dw = true := by rw [OpcodeRow.covers_iff]; omega
      exact ⟨r, by rw [List.filter_cons_of_pos hcov, filter_covers_eq_nil hrs hend]⟩
    · have hcov : ¬r.covers dw = true := by rw [OpcodeRow.covers_iff]; omega
      rw [List.filter_cons_of_neg hcov]
      exact ih hrs (by omega)

/-- The rows of a mode, in the order of the words that they begin with. -/
def rowsInOrder (m : Mode) : List OpcodeRow :=
  (opcodeTable.filter (·.admits m)).insertionSort fun r q => r.bits.toNat ≤ q.bits.toNat

/-- In each of the four modes the rows fill the 17-bit words without a gap or an overlap. -/
theorem rowsInOrder_tile (m : Mode) : tiles 0 (2 ^ 17) (rowsInOrder m) = true := by
  obtain ⟨b, k⟩ := m
  cases b <;> cases k <;> decide

/-- Exactly one row of the table applies to a word in a mode. -/
theorem exactly_one_row_applies (m : Mode) (dw : BitVec 17) :
    ∃ r ∈ opcodeTable, r.covers dw = true ∧ r.admits m = true ∧ opcodeTable.filter (·.applies m dw) = [r] := by
  obtain ⟨r, hr⟩ := filter_covers_eq_singleton (rowsInOrder_tile m) (Nat.zero_le _) dw.isLt
  have hsort : (rowsInOrder m).Perm (opcodeTable.filter (·.admits m)) := List.perm_insertionSort _ _
  have hone : opcodeTable.filter (·.applies m dw) = [r] := by
    rw [List.filter_congr fun q hq => OpcodeRow.applies_eq hq m dw, ← List.filter_filter]
    exact List.perm_singleton.mp (hr ▸ (hsort.filter _).symm)
  have hmem : r ∈ opcodeTable.filter (·.applies m dw) := hone ▸ List.mem_singleton_self r
  obtain ⟨htable, happ⟩ := List.mem_filter.mp hmem
  rw [OpcodeRow.applies_eq htable, Bool.and_eq_true] at happ
  exact ⟨r, htable, happ.1, happ.2, hone⟩

/-! ## Along a row the decode names one operation -/

/-- The addresses after which the decode of a read (`w` false) or a write changes in a mode (R106), and 0xFF4F for its
test of the latch's address. -/
def Mode.decodeBounds (m : Mode) (w : Bool) : List Nat :=
  (if m.biosEnabled then [0x00FF] else []) ++
  (if m.cart = .none then [] else if w then [0x1FFF, 0x3FFF, 0x5FFF] else [0x3FFF]) ++
  [0x7FFF, 0x9FFF, 0xBFFF, 0xDFFF, 0xFDFF, 0xFE9F, 0xFEFF, 0xFF4F, 0xFF50, 0xFF7F, 0xFFFE]

/-- No bound of the decode comes between the two addresses. -/
def SameSide (m : Mode) (w : Bool) (a a' : Addr) : Prop := ∀ b ∈ m.decodeBounds w, a.toNat ≤ b ↔ a'.toNat ≤ b

section SameSide

variable {m : Mode} {w : Bool} {a a' : Addr}

theorem SameSide.boot_iff (h : SameSide m w a a') : a.toNat = 0xFF50 ↔ a'.toNat = 0xFF50 := by
  have h1 := h 0xFF4F (by simp [Mode.decodeBounds])
  have h2 := h 0xFF50 (by simp [Mode.decodeBounds])
  omega

theorem decodeRead_mnemonic_congr (h : SameSide m false a a') :
    (decodeRead m a).mnemonic = (decodeRead m a').mnemonic := by
  have hboot := h.boot_iff
  obtain ⟨b, k⟩ := m
  cases b <;> cases k
  all_goals
    simp only [SameSide, Mode.decodeBounds, if_true, if_false, reduceCtorEq, Bool.false_eq_true, List.cons_append,
      List.nil_append, List.forall_mem_cons] at h
    simp only [decodeRead_eq, h, hboot, apply_ite Instr.mnemonic, Bool.false_eq_true, and_true, and_false]
    rfl

/-- The operation's name does not look at D either (R91). -/
theorem decodeWrite_mnemonic_congr (d d' : Byte) (h : SameSide m true a a') :
    (decodeWrite m a d).mnemonic = (decodeWrite m a' d').mnemonic := by
  have hboot := h.boot_iff
  obtain ⟨b, k⟩ := m
  cases b <;> cases k
  all_goals
    simp only [SameSide, Mode.decodeBounds, if_true, if_false, reduceCtorEq, Bool.false_eq_true, List.cons_append,
      List.nil_append, List.forall_mem_cons] at h
    simp only [decodeWrite_eq, h, hboot, apply_ite Instr.mnemonic, Bool.false_eq_true, and_true, and_false]
    rfl

theorem decode_mnemonic_congr {t t' : Transaction} (hw : t.isWrite = t'.isWrite)
    (h : SameSide m t'.isWrite t.addr t'.addr) : (decode m t).mnemonic = (decode m t').mnemonic := by
  cases t with
  | read a =>
    cases t' with
    | read a' => exact decodeRead_mnemonic_congr h
    | write a' d' => cases hw
  | write a d =>
    cases t' with
    | read a' => cases hw
    | write a' d' => exact decodeWrite_mnemonic_congr d d' h

end SameSide

/-- R91 read backwards: the direction and the address of a decode word. -/
theorem isWrite_eq_of_decodeWord (t : Transaction) : t.isWrite = decide (0x10000 ≤ t.decodeWord.toNat) := by
  cases t with
  | read a => rw [decodeWord_read_toNat]; exact (decide_eq_false (Nat.not_le_of_lt a.isLt)).symm
  | write a d => rw [decodeWord_write_toNat]; exact (decide_eq_true (Nat.le_add_right _ _)).symm

theorem addr_eq_of_decodeWord (t : Transaction) : t.addr.toNat = t.decodeWord.toNat % 0x10000 := by
  cases t with
  | read a => rw [decodeWord_read_toNat]; exact (Nat.mod_eq_of_lt a.isLt).symm
  | write a d => rw [decodeWord_write_toNat, Nat.add_mod_left]; exact (Nat.mod_eq_of_lt a.isLt).symm

/-- The transaction of a row's first word, with D zero in a write. -/
def OpcodeRow.first (r : OpcodeRow) : Transaction :=
  if r.bits.toNat < 0x10000 then .read (r.bits.setWidth 16) else .write (r.bits.setWidth 16) 0

theorem opcodeTable_first_decodeWord : ∀ r ∈ opcodeTable, r.first.decodeWord = r.bits := by
  decide

/-- No row has words of both directions. -/
theorem opcodeTable_one_direction : ∀ r ∈ opcodeTable, r.bits.toNat % 0x10000 + r.span ≤ 0x10000 := by
  decide

/-- No bound of the decode in a mode comes inside a row of that mode. -/
theorem opcodeTable_between_bounds (m : Mode) : ∀ r ∈ opcodeTable, r.admits m = true →
    ∀ b ∈ m.decodeBounds r.first.isWrite, b < r.bits.toNat % 0x10000 ∨ r.bits.toNat % 0x10000 + r.span ≤ b + 1 := by
  obtain ⟨b, k⟩ := m
  cases b <;> cases k <;> decide

/-- The decode of a row's first word has the row's mnemonic. -/
theorem opcodeTable_first_mnemonic (m : Mode) :
    ∀ r ∈ opcodeTable, r.admits m = true → (decode m r.first).mnemonic = r.mnemonic := by
  obtain ⟨b, k⟩ := m
  cases b <;> cases k <;> decide

/-- The decode of every word that a row covers has the row's mnemonic. -/
theorem OpcodeRow.mnemonic_of_covers {r : OpcodeRow} {m : Mode} {t : Transaction} (hr : r ∈ opcodeTable)
    (hm : r.admits m = true) (ht : r.covers t.decodeWord = true) : (decode m t).mnemonic = r.mnemonic := by
  obtain ⟨hlo, hhi⟩ := OpcodeRow.covers_iff.mp ht
  have hone := opcodeTable_one_direction r hr
  have hfirst := opcodeTable_first_decodeWord r hr
  have hw : t.isWrite = r.first.isWrite := by
    rw [isWrite_eq_of_decodeWord, isWrite_eq_of_decodeWord, hfirst, decide_eq_decide]
    omega
  have hside : SameSide m r.first.isWrite t.addr r.first.addr := by
    intro b hb
    have := opcodeTable_between_bounds m r hr hm b hb
    rw [addr_eq_of_decodeWord, addr_eq_of_decodeWord, hfirst]
    omega
  exact (decode_mnemonic_congr hw hside).trans (opcodeTable_first_mnemonic m r hr hm)

end Sys2Proof

namespace Sys2Proof.Machine

/-- Settles O4: in each mode the rows fill the decode words end to end, and along a row the decode's name is that of its
first word. -/
theorem exactlyOneOpcodeRowApplies : Obligations.ExactlyOneOpcodeRowApplies := by
  intro m t
  obtain ⟨r, hr, hcov, hadm, hone⟩ := exactly_one_row_applies m t.decodeWord
  rw [hone, OpcodeRow.mnemonic_of_covers hr hadm hcov]
  rfl

end Sys2Proof.Machine

/-! PROOFS. The serial form and table words, the frame of the stores and of the discarded writes, a write done twice,
the re-offset that underflows, and the model's reset. -/

namespace Sys2Proof.Machine

section SerialForm

/-! ## The serial form and the table words (notes/assumptions 6, 7) -/

variable {t : Transaction}

theorem decodeBytes_of_decodeSerial {bs rest : List Byte} (m : Mode) (h : decodeSerial bs = .ok (t, rest)) :
    decodeBytes m bs = .ok (decode m t, rest) := by
  rw [decodeBytes, h]

theorem decodeTableWord_of_tableTransaction {nbits w : Nat} (h : tableTransaction nbits w = .ok t) :
    decodeTableWord nbits w = some (decode Config.resetMode t) := by
  rw [decodeTableWord, h]

theorem withFetchWord_of_tableTransaction {nbits w : Nat} (s : State) (h : tableTransaction nbits w = .ok t) :
    s.withFetchWord nbits w = { s with pending := t :: s.pending } := by
  rw [State.withFetchWord, h]

end SerialForm

section WriteFrames

/-! ## What the stores and the discarded writes leave (R80, R127 to R137, R165) -/

variable {i : Instr} {s t : State} {a : Addr} {d : Byte}

/-- A store of the byte `d'` in the cell that the operation reaches: every other cell, the registers, the flags and the
model's own fields are as before. -/
structure StoresInItsCell (s t : State) (i : Instr) (d' : Byte) : Prop where
  flags : t.biosEnabled = s.biosEnabled ∧ t.pending = s.pending ∧ t.reads = s.reads ∧ t.fault = s.fault
  cart : t.cart = s.cart ∨ ∃ c c', s.cart = .mbc1 c ∧ t.cart = .mbc1 c' ∧ c' = { c with ram := c'.ram }
  cells : ∃ x, opCell s i = some x ∧ CellWritten s t (some x) d'

/-- A store takes a fatal, is discarded, or stores its byte in the cell that it reaches. -/
theorem Effect.store_cases (he : Effect s i t)
    (hi : i ∈ [.wrVram a d, .wrWram a d, .wrEcho a d, .wrOam a d, .wrHram a d, .wrXram a d]) :
    (∃ f, t = s.enterFatal f) ∨ t = s ∨ ∃ d', StoresInItsCell s t i d' := by
  cases he with
  | fatal f => exact .inl ⟨f, rfl⟩
  | discarded => exact .inr (.inl rfl)
  | vram h =>
    exact .inr (.inr ⟨_, ⟨rfl, rfl, rfl, rfl⟩, .inl rfl, _, rfl,
      cellWritten_array rfl h rfl rfl fun _ => State.store_set_vram _⟩)
  | wram h | echo h =>
    exact .inr (.inr ⟨_, ⟨rfl, rfl, rfl, rfl⟩, .inl rfl, _, rfl,
      cellWritten_array rfl h rfl rfl fun _ => State.store_set_wram _⟩)
  | oam h =>
    exact .inr (.inr ⟨_, ⟨rfl, rfl, rfl, rfl⟩, .inl rfl, _, rfl,
      cellWritten_array rfl h rfl rfl fun _ => State.store_set_oam _⟩)
  | hram h =>
    exact .inr (.inr ⟨_, ⟨rfl, rfl, rfl, rfl⟩, .inl rfl, _, rfl,
      cellWritten_array rfl h rfl rfl fun _ => State.store_set_hram _⟩)
  | xram hc gate h =>
    refine .inr (.inr ⟨_, ⟨rfl, rfl, rfl, rfl⟩, .inr ⟨_, _, hc, rfl, rfl⟩, _, ?_, cellWritten_ramBank hc h⟩)
    simp only [opCell, hc, gate, if_true]
  | delivered hr =>
    simp only [List.mem_cons, List.not_mem_nil, or_false] at hi
    rcases hi with rfl | rfl | rfl | rfl | rfl | rfl <;> cases hr
  | ramen | romb | bankset | mode | boot => simp at hi

theorem Effect.discarded_cases (he : Effect s i t)
    (hi : i ∈ [.wrBios a d, .wrUnmapped a d, .wrNocart a d, .wrIoStub a d]) : t = s ∨ ∃ f, t = s.enterFatal f := by
  cases he with
  | fatal f => exact .inr ⟨f, rfl⟩
  | discarded => exact .inl rfl
  | delivered hr =>
    simp only [List.mem_cons, List.not_mem_nil, or_false] at hi
    rcases hi with rfl | rfl | rfl | rfl <;> cases hr
  | vram | wram | echo | oam | hram | ramen | romb | bankset | mode | xram | boot => simp at hi

end WriteFrames

section RepeatedWrite

/-! ## A write done twice (R77) -/

variable {i : Instr} {s t : State} {a : Addr} {d d' : Byte}

/-- Run again in the state that it leaves, the operation leaves that state. -/
def RepeatsItself (s : State) (i : Instr) : Prop := ∃ t, exec i s = .next t ∧ exec i t = .next t

theorem repeatsItself_of_discarded (h : exec i s = .next s) : RepeatsItself s i := ⟨s, h, h⟩

/-- A register write overwrites what it wrote. -/
theorem repeatsItself_of_register {upd : Mbc1 → Mbc1} (hk : s.mode.cart = .mbc1)
    (hexec : ∀ {s c}, s.cart = .mbc1 c → exec i s = .next { s with cart := .mbc1 (upd c) })
    (hupd : ∀ c, upd (upd c) = upd c) : RepeatsItself s i := by
  obtain ⟨c, hc⟩ := Cart.kind_eq_mbc1.mp hk
  refine ⟨_, hexec hc, ?_⟩
  rw [hexec rfl, hupd]

theorem biosEnabledAfter_idem (b : Bool) (d : Byte) :
    biosEnabledAfter (biosEnabledAfter b d) d = biosEnabledAfter b d := by
  simp only [biosEnabledAfter]
  split_ifs
  · rfl
  · rfl

/-- Row by row of R100: a discard, or an update that overwrites itself. -/
theorem decodeWrite_repeatsItself (s : State) (a : Addr) (d : Byte) : RepeatsItself s (decodeWrite s.mode a d) := by
  refine decodeWrite_elim (P := RepeatsItself s) s.mode a d ?bios ?nocart ?ramen ?romb ?bankset ?mode ?vram ?xram ?wram
    ?echo ?oam ?unmapped ?stub ?boot ?hram
  case bios => exact fun _ h => repeatsItself_of_discarded (exec_wrBios h)
  case nocart => exact fun _ h => repeatsItself_of_discarded (exec_wrNocart (h.imp And.right And.left))
  case ramen => exact fun hk _ _ => repeatsItself_of_register hk exec_wrRamen fun _ => rfl
  case romb => exact fun hk _ _ => repeatsItself_of_register hk exec_wrRomb fun _ => rfl
  case bankset => exact fun hk _ _ => repeatsItself_of_register hk exec_wrBankset fun _ => rfl
  case mode => exact fun hk _ _ => repeatsItself_of_register hk exec_wrMode fun _ => rfl
  case vram => exact fun h h' => ⟨_, exec_wrVram h h', by rw [exec_wrVram h h', Memory.write_write_same]⟩
  case wram => exact fun h h' => ⟨_, exec_wrWram h h', by rw [exec_wrWram h h', Memory.write_write_same]⟩
  case echo => exact fun h h' => ⟨_, exec_wrEcho h h', by rw [exec_wrEcho h h', Memory.write_write_same]⟩
  case oam => exact fun h h' => ⟨_, exec_wrOam h h', by rw [exec_wrOam h h', Memory.write_write_same]⟩
  case hram => exact fun h h' => ⟨_, exec_wrHram h h', by rw [exec_wrHram h h', Memory.write_write_same]⟩
  case xram =>
    intro hk h h'
    obtain ⟨c, hc⟩ := Cart.kind_eq_mbc1.mp hk
    by_cases gate : (c.hasRam && c.ramEnable) = true
    · have hagain (m : Memory) : exec (.wrXram a d) { s with cart := .mbc1 { c with ram := m } } =
          .next { s with cart := .mbc1 { c with
            ram := Memory.write m (c.effRamBank.toNat * 0x2000 + (a.toNat - 0xA000)) d } } :=
        exec_wrXram (c := { c with ram := m }) rfl gate h h'
      exact ⟨_, exec_wrXram hc gate h h', by rw [hagain, Memory.write_write_same]⟩
    · exact repeatsItself_of_discarded (exec_wrXram_discarded hc gate h)
  case unmapped => exact fun _ => repeatsItself_of_discarded exec_wrUnmapped
  case stub => exact fun h h' _ => repeatsItself_of_discarded (exec_wrIoStub h h')
  case boot => exact fun _ => ⟨_, exec_wrIoBoot, by rw [exec_wrIoBoot, biosEnabledAfter_idem]⟩

/-- WR_IO_BOOT is decoded at 0xFF50 only. -/
theorem addr_eq_boot_of_decodeWrite {m : Mode} (h : decodeWrite m a d = .wrIoBoot d') : a = 0xFF50 := by
  have hwhole := (decodeWrite_whole m a d).2
  rw [h] at hwhole
  exact (Transaction.write.inj hwhole).1.symm

/-- The write decodes as before in the state that it leaves: below 0x0100 no write changes the latch, and above it the
decode does not look at the latch (R104). -/
theorem decodeWrite_after_effect (he : Effect s (decodeWrite s.mode a d) t) :
    decodeWrite t.mode a d = decodeWrite s.mode a d := by
  have hkind : t.mode.cart = s.mode.cart := he.cart_kind_eq
  by_cases hlow : a.toNat ≤ 0x00FF
  · have hlatch : t.biosEnabled = s.biosEnabled := by
      by_contra hne
      obtain ⟨d', hboot⟩ := he.latch_writer hne
      rw [addr_eq_boot_of_decodeWrite hboot] at hlow
      exact absurd hlow (by decide)
    have hmode : t.mode = s.mode := by rw [State.mode, hlatch, he.cart_kind_eq]; rfl
    rw [hmode]
  · exact decode_eq_of_cart_eq (t := .write a d) (Nat.lt_of_not_le hlow) hkind

end RepeatedWrite

/-! ## A re-offset that underflows, and the model's reset -/

/-- A read whose re-offset underflows takes the fatal of code 3 (R62, R201). -/
theorem endRead_reoffset_of_lt {s : State} {x : Address} {base : Addr} (k : Address → Except Fatal Byte)
    (h : x.rel.toNat < base.toNat) :
    endRead s (orFatal (reoffset x base) k) = .next { s with fault := some (.reoffsetUnderflow x.raw x.rel base) } := by
  rw [reoffset_of_lt h, orFatal_error, endRead_error, State.enterFatal]

/-- An image of unlisted bytes lists nothing. -/
theorem Memory.ofBytesFrom_replicate (k n : Nat) :
    Memory.ofBytesFrom k (List.replicate n Config.unlistedByte) = [] := by
  induction n generalizing k with
  | zero => rfl
  | succ n ih => rw [List.replicate_succ, Memory.ofBytesFrom, if_pos rfl, ih]

/-- `State.reset` is R230 for the parameters of notes/assumptions 1 and 2. -/
theorem construct_reset :
    construct (List.replicate 256 0) (.mbc1 [] [] true) ⟨[], [], [], [], []⟩ = .ok State.reset := by
  have hlen : ¬(List.replicate 256 (0 : Byte)).length ≠ Config.biosSize := by rw [List.length_replicate]; decide
  have hbios : Memory.ofBytes (List.replicate 256 0) = [] := Memory.ofBytesFrom_replicate 0 256
  rw [construct, if_neg hlen, hbios]
  rfl

/-! ## The obligations -/

/-- Settles O7: the serial form gives back the transaction, whose decode is the operation. -/
theorem serialFormRoundTrips : Obligations.SerialFormRoundTrips := by
  intro m i rest h
  rw [encodeBytes, decodeBytes_of_decodeSerial m (decodeSerial_toSerial (encode i) rest), decode_encode h]

/-- Settles O37: a fatal and a discard leave every cell, and a store writes its own cell alone. -/
theorem frameOfStores : Obligations.FrameOfStores := by
  intro i s t a d hi h
  rcases (exec_effect h).store_cases hi with ⟨f, rfl⟩ | rfl | ⟨d', ⟨hboot, hpend, hreads, hfault⟩, hcart, x, hx, hcells⟩
  · exact ⟨rfl, rfl, rfl, .inr ⟨f, rfl⟩, .inl rfl, fun _ _ c _ _ => State.enterFatal_cell s f c,
      fun _ => State.enterFatal_cell s f⟩
  · exact ⟨rfl, rfl, rfl, .inl rfl, .inl rfl, fun _ _ _ _ _ => rfl, fun _ _ => rfl⟩
  · refine ⟨hboot, hpend, hreads, .inl hfault, hcart, fun k hk c hc hne => ?cells, fun hnone => ?none⟩
    case cells =>
      obtain rfl := Option.some.inj (hx.symm.trans hk)
      exact hcells.others c hc fun heq => hne (Option.some.inj heq).symm
    case none => cases hnone.symm.trans hx

/-- Settles O38: of the effects, these four operations have the fatal and the discard alone. -/
theorem frameOfDiscardedWrites : Obligations.FrameOfDiscardedWrites :=
  fun _ _ _ _ _ hi h => (exec_effect h).discarded_cases hi

/-- Settles O48: the second write decodes to the same operation, and each row's update overwrites itself. -/
theorem repeatedWriteIsIdempotent : Obligations.RepeatedWriteIsIdempotent := by
  intro s t a d h
  obtain ⟨t', hfirst, hsecond⟩ := decodeWrite_repeatsItself s a d
  rw [transact_eq, decode] at h ⊢
  obtain rfl := Host.Outcome.next.inj (h.symm.trans hfirst)
  rw [decodeWrite_after_effect (exec_effect h), hsecond]

/-- Settles O1: each word and each decode computed. -/
theorem decodeOfWordsWrittenOut : Obligations.DecodeOfWordsWrittenOut := by
  unfold Obligations.DecodeOfWordsWrittenOut
  decide

/-- Settles O5: R91 as numbers, and the decode's comparisons are of the address alone. -/
theorem decodeWordHoldsDirectionAndAddressOnly : Obligations.DecodeWordHoldsDirectionAndAddressOnly :=
  fun a d d' _ =>
    ⟨decodeWord_read_toNat a, decodeWord_write_toNat a d, decodeWrite_mnemonic_congr d d' fun _ _ => Iff.rfl⟩

/-- Settles O10: the placed transaction is the first that waits, so the step takes it off again and runs it. -/
theorem placedWordIsTheNextOperation : Obligations.PlacedWordIsTheNextOperation := by
  intro s nbits w t hf h
  refine ⟨?step, fun hmode => ?table⟩
  case step =>
    have hrun : step { s with pending := t :: s.pending } = transact t s := step_transact hf rfl
    rw [withFetchWord_of_tableTransaction s h, hrun, transact_eq]
  case table => rw [decodeTableWord_of_tableTransaction h, hmode]

/-- Settles O17: each of the four reads re-offsets by its region's base first. -/
theorem misroutedReadTakesTheUnderflowFatal : Obligations.MisroutedReadTakesTheUnderflowFatal :=
  fun a _ =>
    ⟨endRead_reoffset_of_lt (x := newAddress a) (base := 0x8000) _,
      endRead_reoffset_of_lt (x := newAddress a) (base := 0xC000) _,
      endRead_reoffset_of_lt (x := newAddress a) (base := 0xFE00) _,
      endRead_reoffset_of_lt (x := newAddress a) (base := 0xFF80) _⟩

/-- Settles O40: reset is a construction from fitting parameters, and these are legal and record no fatal. -/
theorem resetIsALegalConstruction : Obligations.ResetIsALegalConstruction :=
  ⟨construct_reset, construct_legal rfl rfl construct_reset, rfl⟩

end Sys2Proof.Machine
